-- ==== Sys2Proof/Config.lean ====
section
/-! DEFINITION. The block's two bounds (spec/00_scope.md R6, R7); its widths `W = 64`, `G = 7` and `B = 8` (R4, R5) are the
types of Word.lean. All are fixed by the spec and nothing is left free: the block "has no mode, no option and no
configuration input" (R8), and every response field is determined by the request (42_codec_laws.md R128), so no free
value stands here. -/

namespace Sys2Proof.Config

/-- `MAXLEN`, the greatest encoded length in bytes (00_scope.md R6). -/
abbrev maxLen : Nat := 10

/-- `SHIFT_LIMIT`: the decoder fails as overlong once the shift passes it (00_scope.md R7). -/
abbrev shiftLimit : Nat := 64

end Sys2Proof.Config
end

