-- ==== Sys2Proof/Word.lean ====
section
/-! DEFINITION. The word types of the block. All values are unsigned (00_scope.md section 5.1). -/

namespace Sys2Proof

/-- A `u64`: the value to encode, the value decoded, the accumulator (00_scope.md R4). -/
abbrev Word := BitVec 64

/-- A `u8`: the only unit of buffer access (20_memory.md R32). -/
abbrev Byte := BitVec 8

/-- A group: the 7 value bits of a varint byte (30_encoding.md R50, field `d`). -/
abbrev Group := BitVec 7

end Sys2Proof
end

