-- ==== Sys2Proof/Syntax.lean ====
section
/-! DEFINITION. The operations and byte classes of spec/opcode_table.json, and the forms in which they cross the block's
boundary (30_encoding.md R59, R64, R66). -/

namespace Sys2Proof

/-- One constructor per row of spec/opcode_table.json. -/
inductive Instr where
  /-- `ENCODE` (R64, R70): the operand is the request's `VALUE`. -/
  | encode (value : Word)
  /-- `DECODE` (R64, R90): the operands are the request's `IBUF` and its length `N`. -/
  | decode (ibuf : List Byte) (n : Nat)
  /-- `GROUP_LAST` (R59, R95): a byte `0ddddddd`. -/
  | groupLast (d : Group)
  /-- `GROUP_CONT` (R59, R97): a byte `1ddddddd`. -/
  | groupCont (d : Group)
  deriving DecidableEq, Repr

/-- What a request carries beside its tag (10_state.md R22). -/
inductive Operand where
  /-- The ENC unit's request field `VALUE`. -/
  | value (v : Word)
  /-- The DEC unit's request fields `IBUF` and `N`. -/
  | buffer (ibuf : List Byte) (n : Nat)
  deriving DecidableEq, Repr

/-- A request as it crosses the boundary: the tag `op` of format `OP`, and the operand "carried beside the tag, not
inside it" (30_encoding.md R64, spec/opcode_table.json, 95_test_vectors.md P1). -/
structure OpWord where
  op : BitVec 1
  operand : Operand
  deriving DecidableEq, Repr

/-- The two formats of spec/opcode_table.json (R66): `OP`, a tagged request, and `VB`, a varint byte. -/
inductive Wire where
  | op (r : OpWord)
  | vb (b : Byte)
  deriving DecidableEq, Repr

end Sys2Proof
end

