-- ==== Sys2Proof/WellFormed.lean ====
section
/-! DEFINITION. Which terms of `Instr` the hardware can be given. -/

namespace Sys2Proof

/-- The one check: a DECODE request's `N` is the length of its `IBUF` (10_state.md R22: "its length"). Every `VALUE`
is a request (40_encoder.md R77) and every group is a byte's (30_encoding.md R59). -/
def Instr.wf : Instr → Bool
  | .encode _ => true
  | .decode ibuf n => n == ibuf.length
  | .groupLast _ => true
  | .groupCont _ => true

end Sys2Proof
end

