-- ==== Sys2Proof/Decode.lean ====
section
/-! DEFINITION. The decoder of requests and bytes, total, rejecting by name; the encoder, written from the same tables
(30_encoding.md R50, R59, R64); and the host's reading of a word of spec/opcode_table.json. -/

namespace Sys2Proof

/-- Why a request is rejected: it is none that a host can present (10_state.md R22, 30_encoding.md R64). -/
inductive Reject where
  /-- The operand is the other unit's: `op = 0` with a buffer, or `op = 1` with a value. Safe. -/
  | operandKind
  /-- `N` is not the length of `IBUF`. Safe. -/
  | lengthMismatch
  deriving DecidableEq, Repr

/-- `c = (b & 0x80) != 0` (30_encoding.md R50). -/
def contFlag (b : Byte) : Bool := (b &&& 0x80#8) != 0#8

/-- `d = b & 0x7f`, as the 7-bit field it is (30_encoding.md R50). -/
def groupOf (b : Byte) : Group := (b &&& 0x7f#8).setWidth 7

/-- The byte class that bit 7 alone tells (30_encoding.md R59). No byte is reserved or illegal (R63). -/
def decodeByte (b : Byte) : Instr :=
  if contFlag b then .groupCont (groupOf b) else .groupLast (groupOf b)

/-- The operation that the tag selects (30_encoding.md R64): 0 is ENCODE, 1 is DECODE. -/
def decodeOp (r : OpWord) : Except Reject Instr :=
  if r.op = 0#1 then
    match r.operand with
    | .value v => .ok (.encode v)
    | .buffer _ _ => .error .operandKind
  else
    match r.operand with
    | .value _ => .error .operandKind
    | .buffer ibuf n => if n = ibuf.length then .ok (.decode ibuf n) else .error .lengthMismatch

/-- The decoder for the whole block (30_encoding.md R66). -/
def decode : Wire → Except Reject Instr
  | .op r => decodeOp r
  | .vb b => .ok (decodeByte b)

/-- The byte `0ddddddd` (30_encoding.md R59). -/
def lastByteOf (d : Group) : Byte := d.setWidth 8

/-- The byte `1ddddddd` (30_encoding.md R59). -/
def contByteOf (d : Group) : Byte := d.setWidth 8 ||| 0x80#8

/-- The word of an instruction, from the tables of 30_encoding.md R59 and R64. -/
def encode : Instr → Wire
  | .encode v => .op ⟨0#1, .value v⟩
  | .decode ibuf n => .op ⟨1#1, .buffer ibuf n⟩
  | .groupLast d => .vb (lastByteOf d)
  | .groupCont d => .vb (contByteOf d)

/-- The request whose tag is `t` and whose operand bits are all 0: `VALUE = 0`, or the empty `IBUF`. -/
def zeroOperand (t : BitVec 1) : OpWord :=
  ⟨t, if t = 0#1 then .value 0#64 else .buffer [] 0⟩

/-- A word of spec/opcode_table.json in whole bytes. The table's two formats overlap there: the words 0 and 1 are the
two tags of format `OP` and are also bytes of class `GROUP_LAST`, and the number alone does not tell the format.
DESIGN CHOICE (log 11): at this interface they are read as the tags, and every other byte as format `VB`. The machine
itself never meets the question: a tag comes from a request, a byte from `IBUF`. -/
def tableWire (nbits w : Nat) : Option Wire :=
  if 1 ≤ nbits ∧ nbits ≤ 8 then
    if w < 2 then some (.op (zeroOperand (BitVec.ofNat 1 w)))
    else if nbits = 8 ∧ w < 256 then some (.vb (BitVec.ofNat 8 w))
    else none
  else none

/-- The instruction that the decoder reads from a word of spec/opcode_table.json, operand bits 0. -/
def decodeTableWord (nbits w : Nat) : Option Instr :=
  match tableWire nbits w with
  | none => none
  | some x =>
    match decode x with
    | .ok i => some i
    | .error _ => none

end Sys2Proof
end

