-- ==== Sys2Proof/Machine/State.lean ====
section
/-! DEFINITION. The block's state as plain data: the working registers, the buffers, the request and the response of each
unit (spec/10_state.md), and the host's moves still to come. -/

namespace Sys2Proof.Machine

/-- The phase register of a unit, 1 bit (10_state.md R17). -/
inductive Phase where
  | idle
  | run
  deriving DecidableEq, Repr

/-- The two exceptions, both from DECODE (60_exceptions.md R140). A failure records nothing but its kind (R145). -/
inductive Failure where
  | truncated
  | overlong
  deriving DecidableEq, Repr

/-- The response of an ENCODE (10_state.md R22): `BYTES` and `LEN`, 4 bits. -/
structure EncResponse where
  bytes : List Byte
  len : BitVec 4
  deriving DecidableEq, Repr

/-- The request of a DECODE (10_state.md R22): `IBUF` and its length `N`. -/
structure DecRequest where
  ibuf : List Byte
  n : Nat
  deriving DecidableEq, Repr

/-- The response of a DECODE (10_state.md R22). On a failure there is no `VALUE`, no `CONSUMED` and no `RESIDUAL`: they
are absent, not zero (60_exceptions.md R146). -/
inductive DecResponse where
  | ok (value : Word) (consumed : BitVec 4) (residual : List Byte)
  | failed (kind : Failure)
  deriving DecidableEq, Repr

/-- The ENC unit. `obuf` is the output of the operation in progress and is empty when there is none (20_memory.md R31,
70_reset_and_hazards.md R172, log 6). `req` is the request the host is presenting, `resp` the response it has not
taken (10_state.md R22, logs 4 and 5). -/
structure EncUnit where
  v : Word
  n : BitVec 4
  ph : Phase
  obuf : List Byte
  req : Option Word
  resp : Option EncResponse
  deriving DecidableEq, Repr

/-- The DEC unit. `ibuf` and `n` are the request fields of the operation in progress, carried by value and not changed
by it (10_state.md R23, 70_reset_and_hazards.md R174), and are empty and 0 when there is none (R172, log 6). -/
structure DecUnit where
  acc : Word
  sh : BitVec 7
  i : BitVec 4
  ph : Phase
  ibuf : List Byte
  n : Nat
  req : Option DecRequest
  resp : Option DecResponse
  deriving DecidableEq, Repr

/-- The two units (10_state.md R10). -/
inductive UnitId where
  | enc
  | dec
  deriving DecidableEq, Repr

/-- What happens next: a move of the host (60_exceptions.md R156), or a turn of a unit (log 2). The host has no move
that changes `IBUF` during an operation (70_reset_and_hazards.md R174), and none that cancels one
(60_exceptions.md R151). -/
inductive Move where
  /-- Present a request and, if the unit is IDLE, run the whole operation as one atomic step (00_scope.md 5.4). -/
  | call (r : OpWord)
  /-- Present a request and hold it until the unit accepts it in a turn of its own (R175). -/
  | present (r : OpWord)
  /-- The unit takes the one step that is enabled, if any (R74, R98). -/
  | turn (u : UnitId)
  /-- The host takes the unit's response (R156). -/
  | take (u : UnitId)
  /-- Reset (R170). -/
  | reset
  deriving DecidableEq, Repr

/-- The machine: the two units, and the moves to come (the model's own field, log 2). -/
structure State where
  enc : EncUnit
  dec : DecUnit
  moves : List Move
  deriving DecidableEq, Repr

/-- What stops the machine: a primitive asked for a case the spec gives no meaning, each "never reached" by the spec's
own rules (log 9). All are safe: the model stops, and `Safety.lean` names the invariant that rules them out. -/
inductive Fault where
  /-- Raised by the accumulate step: a left shift by 64 or more (00_scope.md R9, U1). Safe. -/
  | shiftTooLong
  /-- Raised by `MemRead` at an offset that does not exist (20_memory.md R33). Safe. -/
  | readOutsideIbuf
  /-- Raised by `MemWrite` beyond the next offset of the sequence (20_memory.md R31, R34). Safe. -/
  | writeOutsideObuf
  /-- Raised when `E.N` or `D.I` would pass 10, the end of its range (00_scope.md R9, 10_state.md R13, R16). Safe. -/
  | countPastTen
  deriving DecidableEq, Repr

/-- Why an instruction has no step here. -/
inductive Refusal where
  /-- Raised by `exec` for an instruction with no meaning yet. No arm uses it. Safe. -/
  | notModelled (mnemonic : String)
  /-- Raised by GROUP_LAST and GROUP_CONT when the DEC unit is not in RUN with a byte left: the rule is not enabled
  (41_decoder.md R94, log 10). Safe. -/
  | byteStepNotEnabled
  /-- Raised for a request that no host can present (logs 7 and 8). Safe. -/
  | badRequest (why : Reject)
  deriving DecidableEq, Repr

/-- The ENC unit after reset (10_state.md R25); the request line holds `req`, which is the host's (log 5). -/
def EncUnit.afterReset (req : Option Word) : EncUnit :=
  { v := 0#64, n := 0#4, ph := .idle, obuf := [], req := req, resp := none }

/-- The DEC unit after reset (10_state.md R25). -/
def DecUnit.afterReset (req : Option DecRequest) : DecUnit :=
  { acc := 0#64, sh := 0#7, i := 0#4, ph := .idle, ibuf := [], n := 0, req := req, resp := none }

/-- The machine right after reset (10_state.md R25, 70_reset_and_hazards.md R170 to R172): both units IDLE, every
working register 0, no response outstanding, no request, no move (log 15). -/
def State.reset : State :=
  { enc := EncUnit.afterReset none, dec := DecUnit.afterReset none, moves := [] }

end Sys2Proof.Machine
end

