-- ==== Sys2Proof/Machine/Flags.lean ====
section
/-! DEFINITION. The block has no flag register and no condition code (10_state.md R19). What it has: the STATUS of a DECODE
response with its codes (60_exceptions.md R141), the unified view FAIL (R144), and the code of a phase (10_state.md R17). -/

namespace Sys2Proof.Machine

/-- The three values of STATUS (60_exceptions.md R141). -/
inductive Status where
  | ok
  | truncated
  | overlong
  deriving DecidableEq, Repr

/-- The 2-bit code of a status (60_exceptions.md R141). -/
def statusCode : Status → BitVec 2
  | .ok => 0b00#2
  | .truncated => 0b01#2
  | .overlong => 0b10#2

/-- The status of a 2-bit code. Code 3 is never produced and is refused (60_exceptions.md R141, U7). -/
def statusOfCode (c : BitVec 2) : Option Status :=
  if c = 0b00#2 then some .ok
  else if c = 0b01#2 then some .truncated
  else if c = 0b10#2 then some .overlong
  else none

/-- The STATUS field of a response (10_state.md R22, 60_exceptions.md R140). -/
def responseStatus : DecResponse → Status
  | .ok _ _ _ => .ok
  | .failed .truncated => .truncated
  | .failed .overlong => .overlong

/-- `FAIL`: `STATUS != OK` (60_exceptions.md R144). -/
def responseFails (r : DecResponse) : Bool := responseStatus r != .ok

/-- The bit of a phase: IDLE is 0, RUN is 1 (10_state.md R17). -/
def phaseCode : Phase → BitVec 1
  | .idle => 0#1
  | .run => 1#1

end Sys2Proof.Machine
end

