-- ==== Sys2Proof/Machine/Operands.lean ====
section
/-! DEFINITION. The operand forms of the two units and the arithmetic primitives of 00_scope.md R9 over them. Everything is
unsigned; the only operation that can lose bits is the left shift (42_codec_laws.md R127). -/

namespace Sys2Proof.Machine

/-- `(v & 0x7f) | 0x80`: the continuation byte that the encoder emits (40_encoder.md R73). -/
def contByte (v : Word) : Byte := ((v &&& 0x7f#64) ||| 0x80#64).setWidth 8

/-- `v & 0x7f`: the final byte that the encoder emits (40_encoder.md R74). -/
def lastByte (v : Word) : Byte := (v &&& 0x7f#64).setWidth 8

/-- `v >> 7`, unsigned and zero-filling (00_scope.md R9). -/
def shr7 (v : Word) : Word := v >>> 7

/-- `zext_64(d)` (00_scope.md section 5.1). -/
def zext64 (d : Group) : Word := d.setWidth 64

/-- `a << n` inside 64 bits, a function of `n` in `[0, 63]` only, as R9 asks: a shift by 64 or more has no meaning
(00_scope.md R9, U1). -/
def shl64 (a : Word) (n : Fin 64) : Word := a <<< n.val

/-- `a + 1` on a counter `E.N` or `D.I`, "ordinary addition", while the result stays in the register's range 0..10
(00_scope.md R9, 10_state.md R13 and R16). Beyond it the spec gives no sum. -/
def countUp (a : BitVec 4) : Option (BitVec 4) :=
  if a.toNat < Config.maxLen then some (a + 1#4) else none

end Sys2Proof.Machine
end

