-- ==== Sys2Proof/Machine/Ops.lean ====
section
/-! DEFINITION. The named operations that the instructions share: the buffers' primitives, the start of an operation, its
response, taking an exception, and the request and response lines. -/

namespace Sys2Proof.Machine

/-- What a step answers. -/
abbrev Result := Host.Outcome State Fault Refusal

/-! ### Updates of the state -/

/-- The state with another ENC unit. -/
def State.setEnc (s : State) (e : EncUnit) : State := { s with enc := e }

/-- The state with another DEC unit. -/
def State.setDec (s : State) (d : DecUnit) : State := { s with dec := d }

/-- The state with other moves to come. -/
def State.setMoves (s : State) (ms : List Move) : State := { s with moves := ms }

/-- A step of the ENC unit as a step of the machine: nothing else changes (10_state.md R10). -/
def liftEnc (s : State) : Except Fault EncUnit → Result
  | .ok e => .next (s.setEnc e)
  | .error f => .fault f

/-- A step of the DEC unit as a step of the machine: nothing else changes (10_state.md R10). -/
def liftDec (s : State) : Except Fault DecUnit → Result
  | .ok d => .next (s.setDec d)
  | .error f => .fault f

/-! ### The buffers (spec/20_memory.md) -/

/-- `MemRead(IBUF, i, 1)`: defined only for `0 <= i < N` (20_memory.md R33). -/
def memRead (buf : List Byte) (n i : Nat) : Option Byte :=
  if i < n then buf[i]? else none

/-- `MemWrite(OBUF, k, 1, b)`: makes `b` the byte at offset `k` (20_memory.md R34). A sequence has no byte beyond its
end (R31), so the write reaches at most the next offset. -/
def memWrite (buf : List Byte) (k : Nat) (b : Byte) : Option (List Byte) :=
  if k < buf.length then some (buf.set k b)
  else if k = buf.length then some (buf ++ [b])
  else none

/-- A buffer as (offset, byte) pairs (20_memory.md R30, R31: offsets from 0 upward). -/
def Memory.cells (buf : List Byte) : List Host.Cell :=
  buf.zipIdx.map fun p => (p.2, p.1)

/-- The canonical form of that view: the offsets are 0, 1, 2, .. in order, with no gap. -/
def Memory.wf (m : List Host.Cell) : Bool := m.map Prod.fst == List.range m.length

/-! ### The ENC unit -/

/-- `ENC.start` (40_encoder.md R72), with what its acceptance does to the unit's lines: the request is no longer
presented, and no earlier response stands (log 4). Nothing of the unit's earlier contents is read (10_state.md R11). -/
def encStart (v : Word) : EncUnit :=
  { v := v, n := 0#4, ph := .run, obuf := [], req := none, resp := none }

/-- Emit one byte: `MemWrite(OBUF, E.N, 1, b)` and `E.N <- E.N + 1` (40_encoder.md R73, R74). -/
def encEmit (e : EncUnit) (b : Byte) : Except Fault EncUnit :=
  match memWrite e.obuf e.n.toNat b with
  | none => .error .writeOutsideObuf
  | some out =>
    match countUp e.n with
    | none => .error .countPastTen
    | some n' => .ok { e with obuf := out, n := n' }

/-- `respond(BYTES = OBUF, LEN = E.N)` and `E.PH <- IDLE` (40_encoder.md R74). `OBUF` is handed over and the unit has
none between operations (70_reset_and_hazards.md R172). -/
def encRespond (e : EncUnit) : EncUnit :=
  { e with resp := some ⟨e.obuf, e.n⟩, ph := .idle, obuf := [] }

/-- The host presents `v` on the unit's request line (60_exceptions.md R156, log 5). -/
def encPresent (v : Word) (e : EncUnit) : EncUnit := { e with req := some v }

/-- The host takes the response (60_exceptions.md R156, 10_state.md R19). -/
def encTake (e : EncUnit) : EncUnit := { e with resp := none }

/-! ### The DEC unit -/

/-- `DEC.start` (41_decoder.md R92), with what its acceptance does to the unit's lines (log 4). -/
def decStart (r : DecRequest) : DecUnit :=
  { acc := 0#64, sh := 0#7, i := 0#4, ph := .run, ibuf := r.ibuf, n := r.n, req := none, resp := none }

/-- The end of an operation: the response stands, the unit is IDLE, and the unit holds no `IBUF` between operations
(00_scope.md section 5.3.1 `respond`, 70_reset_and_hazards.md R172). -/
def decRespond (r : DecResponse) (d : DecUnit) : DecUnit :=
  { d with resp := some r, ph := .idle, ibuf := [], n := 0 }

/-- `raise k`, TAKING AN EXCEPTION (60_exceptions.md R147): the response has the status of `k` and no other field, the
phase goes to IDLE, and no register is saved or changed. There is no handler and no return (R150). -/
def decRaise (k : Failure) (d : DecUnit) : DecUnit := decRespond (.failed k) d

/-- `respond(STATUS = OK, VALUE = D.ACC, CONSUMED = D.I, RESIDUAL = IBUF[D.I ..])` (41_decoder.md R95). -/
def decRespondOk (d : DecUnit) : DecUnit :=
  decRespond (.ok d.acc d.i (d.ibuf.drop d.i.toNat)) d

/-- The host presents a request on the unit's request line (60_exceptions.md R156, log 5). -/
def decPresent (r : DecRequest) (d : DecUnit) : DecUnit := { d with req := some r }

/-- The host takes the response (60_exceptions.md R156, 10_state.md R19). -/
def decTake (d : DecUnit) : DecUnit := { d with resp := none }

/-! ### Both units -/

/-- Reset (70_reset_and_hazards.md R170): both units IDLE with zeroed registers, an operation in progress dropped with
no response, no response outstanding. What the host still presents is the host's (log 5). -/
def resetUnits (s : State) : State :=
  (s.setEnc (EncUnit.afterReset s.enc.req)).setDec (DecUnit.afterReset s.dec.req)

end Sys2Proof.Machine
end

