-- ==== Sys2Proof/Machine/Decoder.lean ====
section
/-! DEFINITION. The DEC unit and the meanings of DECODE, GROUP_LAST and GROUP_CONT (spec/41_decoder.md). -/

namespace Sys2Proof.Machine

/-- `DEC.accumulate` (41_decoder.md R94): the group is ORed in at bit `D.SH` and `D.I` counts the byte. At `D.SH = 63`
bits 1 to 6 of the group leave the register and are lost (R96). -/
def accumulate (d : Group) (u : DecUnit) : Except Fault DecUnit :=
  if h : u.sh.toNat < 64 then
    match countUp u.i with
    | none => .error .countPastTen
    | some i' => .ok { u with acc := u.acc ||| shl64 (zext64 d) ⟨u.sh.toNat, h⟩, i := i' }
  else .error .shiftTooLong

/-- The step for a byte of class `GROUP_LAST` (41_decoder.md R95): R94, then the OK response. -/
def groupLastStep (d : Group) (u : DecUnit) : Except Fault DecUnit :=
  match accumulate d u with
  | .error f => .error f
  | .ok u' => .ok (decRespondOk u')

/-- The second half of the step for a byte of class `GROUP_CONT` (41_decoder.md R97): `D.SH <- D.SH + 7`, and the guard
against a shift beyond the register. -/
def advanceShift (u : DecUnit) : DecUnit :=
  let u' := { u with sh := u.sh + 7#7 }
  if Config.shiftLimit < u'.sh.toNat then decRaise .overlong u' else u'

/-- The step for a byte of class `GROUP_CONT` (41_decoder.md R97): R94, then the shift and its guard. -/
def groupContStep (d : Group) (u : DecUnit) : Except Fault DecUnit :=
  match accumulate d u with
  | .error f => .error f
  | .ok u' => .ok (advanceShift u')

/-- `DEC.end_of_input` (41_decoder.md R93): `raise Truncated`. -/
def decEndOfInput (u : DecUnit) : DecUnit := decRaise .truncated u

/-- The byte step is enabled: phase RUN and `D.I < N` (41_decoder.md R94, 30_encoding.md R60). -/
def byteStepEnabled (u : DecUnit) : Bool := u.ph == .run && decide (u.i.toNat < u.n)

/-- The one enabled step of a unit in RUN (41_decoder.md R93, R94; the order of the tests is 60_exceptions.md R148). -/
def decStep (u : DecUnit) : Except Fault DecUnit :=
  if u.n ≤ u.i.toNat then .ok (decEndOfInput u)
  else
    match memRead u.ibuf u.n u.i.toNat with
    | none => .error .readOutsideIbuf
    | some b => if contFlag b then groupContStep (groupOf b) u else groupLastStep (groupOf b) u

/-- At most `k` steps, stopping when the unit is IDLE. -/
def decRun : Nat → DecUnit → Except Fault DecUnit
  | 0, u => .ok u
  | k + 1, u =>
    match u.ph with
    | .idle => .ok u
    | .run =>
      match decStep u with
      | .error f => .error f
      | .ok u' => decRun k u'

/-- A whole operation: the start, then at most 10 byte steps and at most one end-of-input step (41_decoder.md R98). -/
def decOperation (r : DecRequest) : Except Fault DecUnit := decRun (Config.maxLen + 1) (decStart r)

/-- `DECODE` (41_decoder.md R90): on an IDLE unit, the whole operation as one atomic step, exceptions included. A unit in
RUN does not accept it: the host goes on presenting it (70_reset_and_hazards.md R175). An `N` that is not the length of
`IBUF` is no request (10_state.md R22, log 7). -/
def execDecode (ibuf : List Byte) (n : Nat) (s : State) : Result :=
  if n = ibuf.length then
    match s.dec.ph with
    | .run => .next (s.setDec (decPresent ⟨ibuf, n⟩ s.dec))
    | .idle => liftDec s (decOperation ⟨ibuf, n⟩)
  else .refused (.badRequest .lengthMismatch)

/-- `GROUP_LAST` (41_decoder.md R95), one step of the DEC unit, enabled as R94 says (log 10). -/
def execGroupLast (d : Group) (s : State) : Result :=
  if byteStepEnabled s.dec then liftDec s (groupLastStep d s.dec) else .refused .byteStepNotEnabled

/-- `GROUP_CONT` (41_decoder.md R97), one step of the DEC unit, enabled as R94 says (log 10). -/
def execGroupCont (d : Group) (s : State) : Result :=
  if byteStepEnabled s.dec then liftDec s (groupContStep d s.dec) else .refused .byteStepNotEnabled

end Sys2Proof.Machine
end

