-- ==== Sys2Proof/Machine/Encoder.lean ====
section
/-! DEFINITION. The ENC unit and the meaning of ENCODE (spec/40_encoder.md). -/

namespace Sys2Proof.Machine

/-- `ENC.step_cont` (40_encoder.md R73). -/
def encStepCont (e : EncUnit) : Except Fault EncUnit :=
  match encEmit e (contByte e.v) with
  | .error f => .error f
  | .ok e' => .ok { e' with v := shr7 e'.v }

/-- `ENC.step_last` (40_encoder.md R74). -/
def encStepLast (e : EncUnit) : Except Fault EncUnit :=
  match encEmit e (lastByte e.v) with
  | .error f => .error f
  | .ok e' => .ok (encRespond e')

/-- The one enabled step of a unit in RUN (40_encoder.md R73, R74): the test is unsigned. -/
def encStep (e : EncUnit) : Except Fault EncUnit :=
  if 0x80#64 ≤ e.v then encStepCont e else encStepLast e

/-- The unit takes its enabled step, if any (40_encoder.md R72 to R74). -/
def encTurn (e : EncUnit) : Except Fault EncUnit :=
  match e.ph with
  | .run => encStep e
  | .idle =>
    match e.req with
    | some v => .ok (encStart v)
    | none => .ok e

/-- At most `k` byte steps, stopping when the unit is IDLE. -/
def encRun : Nat → EncUnit → Except Fault EncUnit
  | 0, e => .ok e
  | k + 1, e =>
    match e.ph with
    | .idle => .ok e
    | .run =>
      match encStep e with
      | .error f => .error f
      | .ok e' => encRun k e'

/-- A whole operation: the start and then the byte steps to the response, at most 10 (40_encoder.md R75). -/
def encOperation (v : Word) : Except Fault EncUnit := encRun Config.maxLen (encStart v)

/-- `ENCODE` (40_encoder.md R70): on an IDLE unit, the whole operation as one atomic step. A unit in RUN does not accept
it: the host goes on presenting it, and the operation in progress is not disturbed (70_reset_and_hazards.md R175). -/
def execEncode (v : Word) (s : State) : Result :=
  match s.enc.ph with
  | .run => .next (s.setEnc (encPresent v s.enc))
  | .idle => liftEnc s (encOperation v)

end Sys2Proof.Machine
end

