-- ==== Sys2Proof/Machine/Dispatch.lean ====
section
/-! DEFINITION. One arm per row of spec/opcode_table.json. -/

namespace Sys2Proof.Machine

def exec (i : Instr) (s : State) : Host.Outcome State Fault Refusal :=
  match i with
  | .encode v => Sys2Proof.Machine.execEncode v s
  | .decode ibuf n => Sys2Proof.Machine.execDecode ibuf n s
  | .groupLast d => Sys2Proof.Machine.execGroupLast d s
  | .groupCont d => Sys2Proof.Machine.execGroupCont d s

end Sys2Proof.Machine
end

