-- ==== Sys2Proof/Machine/Fetch.lean ====
section
/-! DEFINITION. What the next step does: which move is next, which unit has its turn, and which instruction, if any, is to
run. The DEC unit fetches the byte at `IBUF[D.I]`; a request's tag selects an operation (30_encoding.md R60, R64). -/

namespace Sys2Proof.Machine

/-- What there is to do: run an instruction in a state, or a step that has no row in the table. -/
inductive Fetched where
  | instr (i : Instr) (s : State)
  | other (r : Result)

/-- A turn of the ENC unit (40_encoder.md R72 to R74). -/
def encUnitTurn (s : State) : Fetched := .other (liftEnc s (encTurn s.enc))

/-- A turn of the DEC unit: accept a request (41_decoder.md R92), end the input (R93), or fetch the byte at `IBUF[D.I]`
and run the instruction of its class (30_encoding.md R60). -/
def decUnitTurn (s : State) : Fetched :=
  match s.dec.ph with
  | .idle =>
    match s.dec.req with
    | some r => .other (.next (s.setDec (decStart r)))
    | none => .other (.next s)
  | .run =>
    if s.dec.n ≤ s.dec.i.toNat then .other (.next (s.setDec (decEndOfInput s.dec)))
    else
      match memRead s.dec.ibuf s.dec.n s.dec.i.toNat with
      | none => .other (.fault .readOutsideIbuf)
      | some b => .instr (decodeByte b) s

/-- The unit has an enabled step: it is in RUN, or a request is presented to it (40_encoder.md R72, R74). -/
def encReady (e : EncUnit) : Bool := e.ph == .run || e.req.isSome

/-- The unit has an enabled step (41_decoder.md R92, R98). -/
def decReady (d : DecUnit) : Bool := d.ph == .run || d.req.isSome

/-- No move is left: a unit with an enabled step takes it, DEC first (log 2); else nothing happens until a request
arrives (70_reset_and_hazards.md R171, R179). -/
def freeTurn (s : State) : Fetched :=
  if decReady s.dec then decUnitTurn s
  else if encReady s.enc then encUnitTurn s
  else .other (.next s)

/-- The host presents an operation on its unit's request line, whatever the unit is doing (60_exceptions.md R156). The
tag names an operation, so the byte classes do not arise here. -/
def present (i : Instr) (s : State) : Result :=
  match i with
  | .encode v => .next (s.setEnc (encPresent v s.enc))
  | .decode ibuf n => .next (s.setDec (decPresent ⟨ibuf, n⟩ s.dec))
  | .groupLast _ => .refused .byteStepNotEnabled
  | .groupCont _ => .refused .byteStepNotEnabled

/-- What move `m` does, the moves after it already being those to come. -/
def fetchMove (m : Move) (s : State) : Fetched :=
  match m with
  | .call r =>
    match decode (.op r) with
    | .ok i => .instr i s
    | .error e => .other (.refused (.badRequest e))
  | .present r =>
    match decode (.op r) with
    | .ok i => .other (present i s)
    | .error e => .other (.refused (.badRequest e))
  | .turn .enc => encUnitTurn s
  | .turn .dec => decUnitTurn s
  | .take .enc => .other (.next (s.setEnc (encTake s.enc)))
  | .take .dec => .other (.next (s.setDec (decTake s.dec)))
  | .reset => .other (.next (resetUnits s))

/-- What the next step does. -/
def fetch (s : State) : Fetched :=
  match s.moves with
  | [] => freeTurn s
  | m :: ms => fetchMove m (s.setMoves ms)

/-- `buf` with the byte at offset `i` replaced, zero bytes filling any gap before it. -/
def bufferWithByte (buf : List Byte) (i : Nat) (b : Byte) : List Byte :=
  buf.take i ++ List.replicate (i - buf.length) 0#8 ++ b :: buf.drop (i + 1)

/-- `s` with `w` placed where the next step fetches: a request as the next move, or a byte at `IBUF[D.I]` of a DEC unit
in RUN whose turn is next. -/
def placeWire (x : Wire) (s : State) : State :=
  match x with
  | .op r => s.setMoves (.call r :: s.moves)
  | .vb b =>
    let buf := bufferWithByte s.dec.ibuf s.dec.i.toNat b
    (s.setDec { s.dec with ph := .run, ibuf := buf, n := buf.length }).setMoves (.turn .dec :: s.moves)

end Sys2Proof.Machine
end

