-- ==== Sys2Proof/Machine/Step.lean ====
section
/-! DEFINITION. One step of the machine, and the host's placing of a word to run next. -/

namespace Sys2Proof.Machine

/-- What is fetched runs. A turn of a unit that runs no instruction is a step too. -/
def runFetched : Fetched → Host.Outcome State Fault Refusal
  | .instr i s => exec i s
  | .other r => r

/-- One step of the machine. -/
def step (s : State) : Host.Outcome State Fault Refusal := runFetched (fetch s)

/-- `s` with the table word `w` placed so that the next step runs it (log 3). A word that is no instruction changes
nothing. -/
def State.withFetchWord (s : State) (nbits w : Nat) : State :=
  match tableWire nbits w with
  | some x => placeWire x s
  | none => s

end Sys2Proof.Machine
end

