-- ==== Sys2Proof/Machine/Codec.lean ====
section
/-! DEFINITION. The operation level of the spec, as functions on values and byte sequences with no unit and no register: the
pseudocode of 40_encoder.md R70 and 41_decoder.md R90, and the closed forms R71 and R91. The machine does not call
them; statements compare the machine with them (R76, R102). -/

namespace Sys2Proof.Machine.Codec

/-- The loop of 40_encoder.md R70. The first argument bounds the turns of its step 1; 9 are enough (R75). -/
def encLoop : Nat → Word → List Byte → List Byte
  | 0, v, out => out ++ [lastByte v]
  | k + 1, v, out =>
    if 0x80#64 ≤ v then encLoop k (v >>> 7) (out ++ [contByte v]) else out ++ [lastByte v]

/-- `enc` (40_encoder.md R70). -/
def enc (v : Word) : List Byte := encLoop 9 v []

/-- `bit_length(v)` (00_scope.md section 5.1). -/
def bitLength (v : Word) : Nat := if v = 0#64 then 0 else Nat.log2 v.toNat + 1

/-- `max(1, ceil(bit_length(v) / 7))`, the canonical length (30_encoding.md R56). -/
def canonicalLength (v : Word) : Nat := max 1 ((bitLength v + 6) / 7)

/-- The group at offset `k` of the encoding of `v` (30_encoding.md R53): value bits `7k + 6` down to `7k`. -/
def groupAt (v : Word) (k : Nat) : Group := (v >>> (7 * k)).setWidth 7

/-- The closed form of the encoder (40_encoder.md R71). -/
def encClosed (v : Word) : List Byte :=
  (List.range (canonicalLength v)).map fun k =>
    if k + 1 < canonicalLength v then contByteOf (groupAt v k) else lastByteOf (groupAt v k)

/-- The loop of 41_decoder.md R90, with `ibuf[i..]` for the bytes not yet read. The first argument bounds its turns;
`shift` is 63 at most wherever it is used as a shift amount, since a turn that makes it larger fails (R97). -/
def decLoop : Nat → Word → Nat → Nat → List Byte → DecResponse
  | 0, _, _, _, _ => .failed .overlong
  | _ + 1, _, _, _, [] => .failed .truncated
  | k + 1, result, shift, i, b :: rest =>
    let result' := result ||| ((groupOf b).setWidth 64 <<< shift)
    if contFlag b then
      if shift + 7 > Config.shiftLimit then .failed .overlong else decLoop k result' (shift + 7) (i + 1) rest
    else .ok result' (BitVec.ofNat 4 (i + 1)) rest

/-- `dec` (41_decoder.md R90). -/
def dec (ibuf : List Byte) : DecResponse := decLoop Config.maxLen 0#64 0 0 ibuf

/-- Value assembly without the `mod` (30_encoding.md R52): the sum of `d_k * 2^(7k)`. -/
def groupSum : List Byte → Nat
  | [] => 0
  | b :: bs => (groupOf b).toNat + 128 * groupSum bs

/-- The least offset below 10 of a byte with bit 7 clear (41_decoder.md R91, `t`). -/
def terminator (ibuf : List Byte) : Option Nat :=
  (ibuf.take Config.maxLen).findIdx? fun b => !contFlag b

/-- The closed form of the decoder (41_decoder.md R91). -/
def decClosed (ibuf : List Byte) : DecResponse :=
  match terminator ibuf with
  | some t => .ok (BitVec.ofNat 64 (groupSum (ibuf.take (t + 1)))) (BitVec.ofNat 4 (t + 1)) (ibuf.drop (t + 1))
  | none => if ibuf.length ≤ 9 then .failed .truncated else .failed .overlong

/-- How many steps the ENC unit takes for `v` (70_reset_and_hazards.md R180): a start, then `LEN` byte steps. -/
def encSteps (v : Word) : Nat := 1 + canonicalLength v

/-- How many steps the DEC unit takes for `ibuf` (70_reset_and_hazards.md R180): a start, the byte steps, and for a
truncated input the end-of-input step. -/
def decSteps (ibuf : List Byte) : Nat :=
  match dec ibuf with
  | .ok _ consumed _ => 1 + consumed.toNat
  | .failed .truncated => 1 + ibuf.length + 1
  | .failed .overlong => 1 + 10

/-- A padded encoding (41_decoder.md R99): the encoding of `v` with its last byte's flag set, then `p` bytes `80` and a
final byte `00`. -/
def padded (v : Word) (p : Nat) : List Byte :=
  (enc v).map (fun b => b ||| 0x80#8) ++ List.replicate p 0x80#8 ++ [0x00#8]

end Sys2Proof.Machine.Codec
end

