-- ==== Sys2Proof/Safety.lean ====
section
/-! DEFINITION. What counts as a safe run: the invariant of the block's registers and buffers (10_state.md R13 to R17, R22,
40_encoder.md R75, 41_decoder.md R98), and the moves a host can make. -/

namespace Sys2Proof.Machine

/-- An ENCODE response has 1 to 10 bytes, `LEN` counts them (20_memory.md R31), and they are a varint: every byte but
the last has its flag set (30_encoding.md R51). -/
def EncResponse.wf (r : EncResponse) : Prop :=
  1 ≤ r.bytes.length ∧ r.bytes.length ≤ 10 ∧ r.len.toNat = r.bytes.length ∧
    r.bytes.map contFlag = List.replicate (r.bytes.length - 1) true ++ [false]

/-- An OK response consumed 1 to 10 bytes (10_state.md R16). -/
def DecResponse.wf : DecResponse → Prop
  | .ok _ consumed _ => 1 ≤ consumed.toNat ∧ consumed.toNat ≤ 10
  | .failed _ => True

/-- The ENC unit is one that the rules of spec/40_encoder.md can reach. -/
structure EncUnit.Inv (e : EncUnit) : Prop where
  /-- `E.N` ranges over 0..10 (10_state.md R13). -/
  count : e.n.toNat ≤ 10
  /-- A unit in `IDLE` holds no output (70_reset_and_hazards.md R172). -/
  idle : e.ph = .idle → e.obuf = []
  /-- In `RUN` at most 9 bytes are out and `E.N` counts them (40_encoder.md R75). -/
  runCount : e.ph = .run → e.obuf.length = e.n.toNat ∧ e.n.toNat ≤ 9
  /-- In `RUN`, after `j` bytes `E.V < 2^(64 - 7j)` (40_encoder.md R75). -/
  runValue : e.ph = .run → e.v.toNat < 2 ^ (64 - 7 * e.n.toNat)
  /-- In `RUN`, every byte emitted so far is a continuation byte (40_encoder.md R73). -/
  runBytes : e.ph = .run → ∀ b ∈ e.obuf, contFlag b = true
  /-- The response, if any, is one (20_memory.md R31). -/
  resp : ∀ r, e.resp = some r → r.wf

/-- The DEC unit is one that the rules of spec/41_decoder.md can reach. -/
structure DecUnit.Inv (d : DecUnit) : Prop where
  /-- `D.I` ranges over 0..10 (10_state.md R16). -/
  count : d.i.toNat ≤ 10
  /-- `D.SH` is one of 0, 7, .., 63, 70 (10_state.md R15). -/
  shift : d.sh.toNat % 7 = 0 ∧ d.sh.toNat ≤ 70
  /-- A unit in `IDLE` holds no input (70_reset_and_hazards.md R172). -/
  idle : d.ph = .idle → d.ibuf = [] ∧ d.n = 0
  /-- In `RUN`, `N` is the length of `IBUF` (10_state.md R22). -/
  runLength : d.ph = .run → d.n = d.ibuf.length
  /-- In `RUN`, `D.SH = 7 * D.I` and `D.SH <= 63` (10_state.md R15), and `D.I` is within the input. -/
  runShift : d.ph = .run → d.sh.toNat = 7 * d.i.toNat ∧ d.sh.toNat ≤ 63 ∧ d.i.toNat ≤ d.n
  /-- In `RUN`, every byte read so far is a continuation byte (41_decoder.md R97). -/
  runBytes : d.ph = .run → ∀ b ∈ d.ibuf.take d.i.toNat, contFlag b = true
  /-- In `RUN`, the accumulator holds the groups read so far (30_encoding.md R52), all below bit `D.SH`
  (41_decoder.md R94). -/
  runAcc : d.ph = .run → d.acc.toNat = Codec.groupSum (d.ibuf.take d.i.toNat)
  /-- The request presented, if any, has `N` the length of `IBUF` (10_state.md R22). -/
  req : ∀ r, d.req = some r → r.n = r.ibuf.length
  /-- The response, if any, is one (10_state.md R16). -/
  resp : ∀ r, d.resp = some r → r.wf

/-- The invariant of the machine. -/
structure State.Inv (s : State) : Prop where
  enc : s.enc.Inv
  dec : s.dec.Inv

/-- The move can be made by a host: a request it presents decodes (10_state.md R22, 30_encoding.md R64). -/
def Move.wf : Move → Bool
  | .call r => (decode (.op r)).isOk
  | .present r => (decode (.op r)).isOk
  | .turn _ => true
  | .take _ => true
  | .reset => true

/-- Every move to come can be made by a host. -/
def State.hostOk (s : State) : Prop := ∀ m ∈ s.moves, m.wf = true

/-- `k` steps, up to the first that stops. -/
def stepN : Nat → State → Result
  | 0, s => .next s
  | k + 1, s =>
    match step s with
    | .next t => stepN k t
    | .fault r => .fault r
    | .refused r => .refused r

/-- The step does not stop. -/
def Goes (r : Result) : Prop := ∃ t, r = .next t

end Sys2Proof.Machine
end

