-- ==== Sys2Proof/Certificates/Slice0/Obligations.lean ====
section
/-! DEFINITION. The statements about the model, for the provers. Each says which rule of spec/ it formalises. -/

section Statements

open Sys2Proof Sys2Proof.Machine

/-! ### Reset and the host's moves -/

/-- 10_state.md R25: what reset leaves in the phase registers, the working registers and the responses. -/
def Obligations.ResetLeavesUnitsIdleAndRegistersZero : Prop :=
  State.reset.enc.ph = .idle ∧ State.reset.dec.ph = .idle ∧
    State.reset.enc.v = 0#64 ∧ State.reset.enc.n = 0#4 ∧
    State.reset.dec.acc = 0#64 ∧ State.reset.dec.sh = 0#7 ∧ State.reset.dec.i = 0#4 ∧
    State.reset.enc.resp = none ∧ State.reset.dec.resp = none

/-- 70_reset_and_hazards.md R170: reset at any time, an operation in progress dropped with no response. The model's
choices: an untaken response goes too (log 4), and the buffers that do not exist then read as empty (log 6). -/
def Obligations.ResetDropsOperationsInProgress : Prop :=
  ∀ (s : State) (ms : List Move), s.moves = .reset :: ms →
    ∃ t, step s = .next t ∧ t.moves = ms ∧
      t.enc.ph = .idle ∧ t.enc.v = 0#64 ∧ t.enc.n = 0#4 ∧ t.enc.obuf = [] ∧ t.enc.resp = none ∧
      t.dec.ph = .idle ∧ t.dec.acc = 0#64 ∧ t.dec.sh = 0#7 ∧ t.dec.i = 0#4 ∧ t.dec.ibuf = [] ∧ t.dec.n = 0 ∧
      t.dec.resp = none

/-- 70_reset_and_hazards.md R171: the block does nothing until a request arrives. -/
def Obligations.IdleBlockDoesNothingWithoutRequest : Prop :=
  step State.reset = .next State.reset ∧
    ∀ s : State, s.moves = [] → s.enc.ph = .idle → s.dec.ph = .idle → s.enc.req = none → s.dec.req = none →
      step s = .next s

/-- 70_reset_and_hazards.md R175: a request to a unit in RUN, presented or called, is held on the request line and the
operation in progress goes on undisturbed. The model's choice (log 5): the line is a field, a called operation waits on
it, and a request that stood on it already is replaced. -/
def Obligations.RequestToRunningUnitIsOnlyHeld : Prop :=
  (∀ (v : Word) (s : State), s.enc.ph = .run →
      exec (.encode v) s = .next { s with enc := { s.enc with req := some v } }) ∧
  (∀ (ibuf : List Byte) (s : State), s.dec.ph = .run →
      exec (.decode ibuf ibuf.length) s = .next { s with dec := { s.dec with req := some ⟨ibuf, ibuf.length⟩ } }) ∧
  (∀ (v : Word) (s : State) (ms : List Move), s.moves = .present ⟨0#1, .value v⟩ :: ms → s.enc.ph = .run →
      step s = .next { s with enc := { s.enc with req := some v }, moves := ms }) ∧
  (∀ (ibuf : List Byte) (s : State) (ms : List Move), s.moves = .present ⟨1#1, .buffer ibuf ibuf.length⟩ :: ms →
      s.dec.ph = .run →
      step s = .next { s with dec := { s.dec with req := some ⟨ibuf, ibuf.length⟩ }, moves := ms })

/-- 10_state.md R22, 60_exceptions.md R156: a request presented to a unit in IDLE stands on its request line until a turn
of the unit accepts it (R72, R92), and nothing else of the machine changes. The model's choice (log 5): a request that
stood on the line already is replaced. -/
def Obligations.RequestToIdleUnitIsOnlyPresented : Prop :=
  (∀ (v : Word) (s : State) (ms : List Move), s.moves = .present ⟨0#1, .value v⟩ :: ms → s.enc.ph = .idle →
      step s = .next { s with enc := { s.enc with req := some v }, moves := ms }) ∧
  (∀ (ibuf : List Byte) (s : State) (ms : List Move), s.moves = .present ⟨1#1, .buffer ibuf ibuf.length⟩ :: ms →
      s.dec.ph = .idle →
      step s = .next { s with dec := { s.dec with req := some ⟨ibuf, ibuf.length⟩ }, moves := ms })

/-- 10_state.md R19, 60_exceptions.md R156: a taken response is no longer there, and taking it changes nothing else.
The model's choice (log 4): taking when there is none changes nothing. -/
def Obligations.TakingResponseRemovesOnlyIt : Prop :=
  (∀ (s : State) (ms : List Move), s.moves = .take .enc :: ms →
      step s = .next { s with enc := { s.enc with resp := none }, moves := ms }) ∧
  (∀ (s : State) (ms : List Move), s.moves = .take .dec :: ms →
      step s = .next { s with dec := { s.dec with resp := none }, moves := ms })

/-! ### Encodings -/

/-- 30_encoding.md R59, R64, R66: no bit of an encoding is dropped. -/
def Obligations.DecodeInvertsEncode : Prop :=
  ∀ i : Instr, i.wf = true → decode (encode i) = .ok i

/-- 30_encoding.md R66: every pattern is taken by one row, so a word that decodes is the word of what it decodes to. -/
def Obligations.EncodeInvertsDecode : Prop :=
  ∀ (x : Wire) (i : Instr), decode x = .ok i → encode i = x ∧ i.wf = true

/-- 30_encoding.md R59, R50: bit 7 alone tells the class of a byte, and bits 6 to 0 are its group. -/
def Obligations.EveryByteHasExactlyOneClass : Prop :=
  ∀ b : Byte,
    (b.toNat < 0x80 → ∃ d : Group, d.toNat = b.toNat ∧ decode (.vb b) = .ok (.groupLast d)) ∧
    (0x80 ≤ b.toNat → ∃ d : Group, d.toNat = b.toNat - 0x80 ∧ decode (.vb b) = .ok (.groupCont d))

/-- 30_encoding.md R64: the tag selects the operation, its operand beside it. -/
def Obligations.RequestTagSelectsOperation : Prop :=
  (∀ v : Word, decode (.op ⟨0#1, .value v⟩) = .ok (.encode v)) ∧
  (∀ ibuf : List Byte, decode (.op ⟨1#1, .buffer ibuf ibuf.length⟩) = .ok (.decode ibuf ibuf.length))

/-- The model's choice (logs 7 and 8): a request that no host can present is rejected, and DECODE with an `N` that is
not the length of `IBUF` is refused by name. -/
def Obligations.ImpossibleRequestsAreRejected : Prop :=
  (∀ (ibuf : List Byte) (n : Nat), decode (.op ⟨0#1, .buffer ibuf n⟩) = .error .operandKind) ∧
  (∀ v : Word, decode (.op ⟨1#1, .value v⟩) = .error .operandKind) ∧
  (∀ (ibuf : List Byte) (n : Nat), n ≠ ibuf.length →
      decode (.op ⟨1#1, .buffer ibuf n⟩) = .error .lengthMismatch ∧
      ∀ s : State, exec (.decode ibuf n) s = .refused (.badRequest .lengthMismatch))

/-- Words written out from 30_encoding.md R59 and R64. -/
def Obligations.WrittenOutWordsDecode : Prop :=
  decode (.op ⟨0#1, .value 0x12C#64⟩) = .ok (.encode 300#64) ∧
  decode (.op ⟨1#1, .buffer [0xAC#8, 0x02#8] 2⟩) = .ok (.decode [0xAC#8, 0x02#8] 2) ∧
  decode (.vb 0b00000010#8) = .ok (.groupLast 2#7) ∧
  decode (.vb 0b10101100#8) = .ok (.groupCont 0x2C#7)

/-- 60_exceptions.md R141: the codes of STATUS, and code 3, which the block never produces and the model refuses. -/
def Obligations.StatusCodesAreThree : Prop :=
  statusCode .ok = 0#2 ∧ statusCode .truncated = 1#2 ∧ statusCode .overlong = 2#2 ∧ statusOfCode 3#2 = none ∧
    (∀ x : Status, statusOfCode (statusCode x) = some x) ∧ (∀ r : DecResponse, statusCode (responseStatus r) ≠ 3#2)

/-! ### The step and the instruction -/

/-- A called request runs the operation that its tag selects: the step is `exec` of it, the move being used up. -/
def Obligations.StepRunsCalledOperation : Prop :=
  ∀ (s : State) (r : OpWord) (ms : List Move) (i : Instr), s.moves = .call r :: ms → decode (.op r) = .ok i →
    step s = exec i { s with moves := ms }

/-- 30_encoding.md R60: the DEC unit in RUN with `D.I < N` runs the instruction of the byte at `IBUF[D.I]`, in a turn
of its own or when no move is left. The model's choice (log 2): with no move left the DEC unit moves first. -/
def Obligations.StepRunsFetchedByte : Prop :=
  ∀ (s : State) (b : Byte), s.dec.ph = .run → s.dec.i.toNat < s.dec.n → s.dec.ibuf[s.dec.i.toNat]? = some b →
    (∀ ms : List Move, s.moves = .turn .dec :: ms → step s = exec (decodeByte b) { s with moves := ms }) ∧
    (s.moves = [] → step s = exec (decodeByte b) s)

/-- The model's own placing (logs 3 and 11), no rule of the spec: a table word that `withFetchWord` places is what the
next step runs, the moves being those that were to come. Log 3 says where it is placed, log 11 which format the words 0
and 1 are read in. -/
def Obligations.PlacedWordRunsNext : Prop :=
  ∀ (s : State) (nbits w : Nat) (i : Instr), decodeTableWord nbits w = some i →
    step (s.withFetchWord nbits w) = exec i { s.withFetchWord nbits w with moves := s.moves }

/-! ### The buffers -/

/-- 20_memory.md R33, R34: a write puts its byte at its offset, and every other offset reads as before. -/
def Obligations.WriteChangesOnlyItsOffset : Prop :=
  ∀ (buf out : List Byte) (k : Nat) (b : Byte), memWrite buf k b = some out →
    memRead out out.length k = some b ∧
      ∀ a : Nat, a ≠ k → memRead out out.length a = memRead buf buf.length a

/-! ### ENCODE -/

/-- 40_encoder.md R70: ENCODE on an IDLE unit completes with the algorithm's bytes and their number, and (R10, R78)
leaves the DEC unit and the moves to come as they were. `E.V` and `E.N` hold what the loop leaves in them (R74). The
model's choices: the buffer reads as empty afterwards (log 6), and the call takes the place of a request that stood on
the line (log 5). -/
def Obligations.EncodeRespondsWithAlgorithmsBytes : Prop :=
  ∀ (v : Word) (s : State), s.enc.ph = .idle →
    ∃ t, exec (.encode v) s = .next t ∧
      t.enc.resp = some ⟨Codec.enc v, BitVec.ofNat 4 (Codec.enc v).length⟩ ∧
      t.enc.ph = .idle ∧ t.enc.obuf = [] ∧ t.enc.req = none ∧
      t.enc.n = BitVec.ofNat 4 (Codec.enc v).length ∧ t.enc.v = v >>> (7 * ((Codec.enc v).length - 1)) ∧
      t.dec = s.dec ∧ t.moves = s.moves

/-- 40_encoder.md R71: the closed form of the encoder, and the last byte of a longer encoding is not `00`. -/
def Obligations.EncoderHasClosedForm : Prop :=
  ∀ v : Word, Codec.enc v = Codec.encClosed v ∧ (Codec.enc v).length = Codec.canonicalLength v ∧
    (∀ b ∈ (Codec.enc v).getLast?, b.toNat < 0x80) ∧
    (1 < (Codec.enc v).length → (Codec.enc v).getLast? ≠ some 0#8)

/-- 40_encoder.md R72: `ENC.start`, the turn of an IDLE unit to which a request is presented. -/
def Obligations.EncoderStartLoadsRequest : Prop :=
  ∀ (s : State) (ms : List Move) (v : Word), s.moves = .turn .enc :: ms → s.enc.ph = .idle → s.enc.req = some v →
    ∃ t, step s = .next t ∧ t.enc.v = v ∧ t.enc.n = 0#4 ∧ t.enc.ph = .run ∧ t.enc.obuf = [] ∧ t.enc.req = none ∧
      t.dec = s.dec ∧ t.moves = ms

/-- 40_encoder.md R73: `ENC.step_cont`, with everything it leaves alone. -/
def Obligations.EncoderContinuationStepEmitsAndShifts : Prop :=
  ∀ (s : State) (ms : List Move), s.moves = .turn .enc :: ms → s.enc.ph = .run → 0x80 ≤ s.enc.v.toNat →
    s.enc.obuf.length = s.enc.n.toNat → s.enc.n.toNat ≤ 9 →
    ∃ b : Byte, b.toNat = s.enc.v.toNat % 128 + 128 ∧
      step s = .next { s with
        enc := { s.enc with v := s.enc.v >>> 7, n := s.enc.n + 1#4, obuf := s.enc.obuf ++ [b] }
        moves := ms }

/-- 40_encoder.md R74: `ENC.step_last`, with everything it leaves alone. The model's choice (log 6): the buffer, now in
the response, reads as empty. -/
def Obligations.EncoderLastStepResponds : Prop :=
  ∀ (s : State) (ms : List Move), s.moves = .turn .enc :: ms → s.enc.ph = .run → s.enc.v.toNat < 0x80 →
    s.enc.obuf.length = s.enc.n.toNat → s.enc.n.toNat ≤ 9 →
    ∃ b : Byte, b.toNat = s.enc.v.toNat ∧
      step s = .next { s with
        enc := { s.enc with
          n := s.enc.n + 1#4, ph := .idle, obuf := [], resp := some ⟨s.enc.obuf ++ [b], s.enc.n + 1#4⟩ }
        moves := ms }

/-- 40_encoder.md R76, 70_reset_and_hazards.md R180: one byte a step, from a presented request, ends after exactly
`1 + LEN` turns in the ENC unit that the one atomic step leaves, and not before. The units agree as a whole, in what
logs 5 and 6 choose as well (request line, empty buffer). -/
def Obligations.EncoderTurnsAgreeWithAtomicOperation : Prop :=
  ∀ (s : State) (v : Word), s.enc.ph = .idle → s.enc.req = some v →
    s.moves = List.replicate (Codec.encSteps v) (.turn .enc) →
    ∃ t u w : State, stepN (Codec.encSteps v) s = .next t ∧ exec (.encode v) s = .next u ∧
      t.enc = u.enc ∧ t.dec = s.dec ∧ t.moves = [] ∧
      stepN (Codec.encSteps v - 1) s = .next w ∧ w.enc.ph = .run

/-! ### DECODE and the byte classes -/

/-- 41_decoder.md R90: DECODE on an IDLE unit completes with the algorithm's response, failures included, and (R10,
R103) leaves the ENC unit and the moves to come as they were. The model's choices: the input reads as empty and `N` as 0
afterwards (log 6), and the call takes the place of a request that stood on the line (log 5). -/
def Obligations.DecodeRespondsWithAlgorithmsResult : Prop :=
  ∀ (ibuf : List Byte) (s : State), s.dec.ph = .idle →
    ∃ t, exec (.decode ibuf ibuf.length) s = .next t ∧
      t.dec.resp = some (Codec.dec ibuf) ∧
      t.dec.ph = .idle ∧ t.dec.ibuf = [] ∧ t.dec.n = 0 ∧ t.dec.req = none ∧
      t.enc = s.enc ∧ t.moves = s.moves

/-- 41_decoder.md R91: the closed form of the decoder, its three cases. -/
def Obligations.DecoderHasClosedForm : Prop :=
  ∀ ibuf : List Byte, Codec.dec ibuf = Codec.decClosed ibuf

/-- 41_decoder.md R91: no byte at offset 10 or above bears on the response, except that it is carried through in
`RESIDUAL`. -/
def Obligations.DecoderIgnoresBytesPastTheTenth : Prop :=
  ∀ p a b : List Byte, p.length = 10 →
    (∀ v c r, Codec.dec (p ++ a) = .ok v c r → ∃ q, r = q ++ a ∧ Codec.dec (p ++ b) = .ok v c (q ++ b)) ∧
    (∀ k, Codec.dec (p ++ a) = .failed k → Codec.dec (p ++ b) = .failed k)

/-- 41_decoder.md R92: `DEC.start`, the turn of an IDLE unit to which a request is presented. -/
def Obligations.DecoderStartLoadsRequest : Prop :=
  ∀ (s : State) (ms : List Move) (ibuf : List Byte), s.moves = .turn .dec :: ms → s.dec.ph = .idle →
    s.dec.req = some ⟨ibuf, ibuf.length⟩ →
    ∃ t, step s = .next t ∧ t.dec.acc = 0#64 ∧ t.dec.sh = 0#7 ∧ t.dec.i = 0#4 ∧ t.dec.ph = .run ∧
      t.dec.ibuf = ibuf ∧ t.dec.n = ibuf.length ∧ t.dec.req = none ∧ t.enc = s.enc ∧ t.moves = ms

/-- 41_decoder.md R93, 60_exceptions.md R147: at the end of the input the unit raises Truncated, with everything that
this leaves alone. The model's choice (log 6): the input, which ends with the operation, reads as empty and `N` as 0. -/
def Obligations.EndOfInputRaisesTruncated : Prop :=
  ∀ (s : State) (ms : List Move), s.moves = .turn .dec :: ms → s.dec.ph = .run → s.dec.n ≤ s.dec.i.toNat →
    step s = .next { s with
      dec := { s.dec with ph := .idle, resp := some (.failed .truncated), ibuf := [], n := 0 }
      moves := ms }

/-- 41_decoder.md R95 with R94: GROUP_LAST completes with the OK response, with everything it leaves alone. The model's
choice (log 6): the input, which ends with the operation, reads as empty and `N` as 0. -/
def Obligations.GroupLastAccumulatesAndResponds : Prop :=
  ∀ (d : Group) (s : State), s.dec.ph = .run → s.dec.i.toNat < s.dec.n → s.dec.i.toNat ≤ 9 → s.dec.sh.toNat ≤ 63 →
    exec (.groupLast d) s = .next { s with
      dec := { s.dec with
        acc := s.dec.acc ||| (d.setWidth 64 <<< s.dec.sh.toNat), i := s.dec.i + 1#4, ph := .idle, ibuf := [], n := 0
        resp := some (.ok (s.dec.acc ||| (d.setWidth 64 <<< s.dec.sh.toNat)) (s.dec.i + 1#4)
          (s.dec.ibuf.drop (s.dec.i.toNat + 1))) } }

/-- 41_decoder.md R97 with R94: GROUP_CONT completes by going on to the next byte while `D.SH + 7 <= 64`, the input
reading as before, and raises Overlong in the same step when `D.SH + 7 > 64` (60_exceptions.md R147); with everything
that each leaves alone. The model's choice (log 6), in the second: the input reads as empty and `N` as 0. -/
def Obligations.GroupContContinuesOrRaisesOverlong : Prop :=
  ∀ (d : Group) (s : State), s.dec.ph = .run → s.dec.i.toNat < s.dec.n → s.dec.i.toNat ≤ 9 →
    (s.dec.sh.toNat + 7 ≤ 64 →
      exec (.groupCont d) s = .next { s with
        dec := { s.dec with
          acc := s.dec.acc ||| (d.setWidth 64 <<< s.dec.sh.toNat), i := s.dec.i + 1#4, sh := s.dec.sh + 7#7 } }) ∧
    (64 < s.dec.sh.toNat + 7 → s.dec.sh.toNat ≤ 63 →
      exec (.groupCont d) s = .next { s with
        dec := { s.dec with
          acc := s.dec.acc ||| (d.setWidth 64 <<< s.dec.sh.toNat), i := s.dec.i + 1#4, sh := s.dec.sh + 7#7
          ph := .idle, ibuf := [], n := 0, resp := some (.failed .overlong) } })

/-- The model's choice (log 10): a byte class outside a running operation, or with no byte left, is refused by name. -/
def Obligations.ByteStepRefusedWhenNotEnabled : Prop :=
  ∀ (d : Group) (s : State), s.dec.ph = .idle ∨ s.dec.n ≤ s.dec.i.toNat →
    exec (.groupLast d) s = .refused .byteStepNotEnabled ∧ exec (.groupCont d) s = .refused .byteStepNotEnabled

/-- 41_decoder.md R96: bit 0 of the tenth byte becomes value bit 63, and bits 1 to 6 are lost: they reach no other bit of
the value and cause no failure. -/
def Obligations.TenthGroupKeepsOnlyBitZero : Prop :=
  (∀ d : Group, d.setWidth 64 <<< 63 = if d.getLsbD 0 then 0x8000000000000000#64 else 0#64) ∧
  ∀ (p rest : List Byte) (b : Byte), p.length = 9 → (∀ x ∈ p, contFlag x = true) → contFlag b = false →
    Codec.dec (p ++ b :: rest) = .ok
      (BitVec.ofNat 64 (Codec.groupSum p) ||| if b.getLsbD 0 then 0x8000000000000000#64 else 0#64) 10#4 rest

/-- 10_state.md R23, 20_memory.md R38, R39: while a DECODE goes on, its input does not change and the offset goes up by
exactly 1 a step. -/
def Obligations.RunningDecodeKeepsItsInput : Prop :=
  ∀ (s t : State) (ms : List Move), s.moves = .turn .dec :: ms → s.dec.ph = .run → step s = .next t →
    t.dec.ph = .run →
    t.dec.ibuf = s.dec.ibuf ∧ t.dec.n = s.dec.n ∧ t.dec.i.toNat = s.dec.i.toNat + 1

/-- 41_decoder.md R102, 70_reset_and_hazards.md R180: one byte a step, from a presented request, ends after exactly the
turns that R180 counts in the DEC unit that the one atomic step leaves, and not before. The units agree as a whole, in
what logs 5 and 6 choose as well (request line, empty input). -/
def Obligations.DecoderTurnsAgreeWithAtomicOperation : Prop :=
  ∀ (s : State) (ibuf : List Byte), s.dec.ph = .idle → s.dec.req = some ⟨ibuf, ibuf.length⟩ →
    s.moves = List.replicate (Codec.decSteps ibuf) (.turn .dec) →
    ∃ t u w : State, stepN (Codec.decSteps ibuf) s = .next t ∧ exec (.decode ibuf ibuf.length) s = .next u ∧
      t.dec = u.dec ∧ t.enc = s.enc ∧ t.moves = [] ∧
      stepN (Codec.decSteps ibuf - 1) s = .next w ∧ w.dec.ph = .run

/-! ### Laws of the codec -/

/-- 42_codec_laws.md R122, which contains R120 (`S` empty): what ENCODE produced decodes to its value, whatever
follows. -/
def Obligations.EncodingsDecodeWithAnySuffix : Prop :=
  ∀ (v : Word) (suffix : List Byte),
    Codec.dec (Codec.enc v ++ suffix) = .ok v (BitVec.ofNat 4 (Codec.enc v).length) suffix

/-- 95_test_vectors.md P1, 42_codec_laws.md R120, R122: a round trip through both units of the machine. That the
ENC response, left untaken, still stands at the end is the model's choice (log 4). -/
def Obligations.RoundTripThroughBothUnits : Prop :=
  ∀ (v : Word) (suffix : List Byte) (s : State), s.enc.ph = .idle → s.dec.ph = .idle →
    ∃ t u r, exec (.encode v) s = .next t ∧ t.enc.resp = some r ∧
      exec (.decode (r.bytes ++ suffix) (r.bytes ++ suffix).length) t = .next u ∧
      u.dec.resp = some (.ok v r.len suffix) ∧ u.enc.resp = some r

/-- 42_codec_laws.md R123: every proper beginning of an encoding is truncated, the empty one too. -/
def Obligations.ProperBeginningsAreTruncated : Prop :=
  ∀ (v : Word) (p : Nat), p < (Codec.enc v).length → Codec.dec ((Codec.enc v).take p) = .failed .truncated

/-- 42_codec_laws.md R124, with D8: ten continuation bytes in a row are overlong, whatever follows. -/
def Obligations.TenContinuationBytesAreOverlong : Prop :=
  ∀ s : List Byte, 10 ≤ s.length → (∀ b ∈ s.take 10, contFlag b = true) → Codec.dec s = .failed .overlong

/-- 42_codec_laws.md R125, its first sentence and, for fewer than 10 bytes consumed, its second. -/
def Obligations.ReencodingIsNoLonger : Prop :=
  ∀ (ibuf r : List Byte) (v : Word) (c : BitVec 4), Codec.dec ibuf = .ok v c r →
    (Codec.enc v).length ≤ c.toNat ∧
      Codec.dec (Codec.enc v) = .ok v (BitVec.ofNat 4 (Codec.enc v).length) [] ∧
      (c.toNat ≤ 9 → ((Codec.enc v).length = c.toNat ↔ ibuf.take c.toNat = Codec.enc v))

/-- 42_codec_laws.md R125, its sentence on equal lengths as it stands. It fails for ten bytes: `FF*9 7F` has the length
of the canonical `FF*9 01` (95_test_vectors.md section 5, log 17). -/
def Obligations.EqualLengthMeansCanonical : Prop :=
  ∀ (ibuf r : List Byte) (v : Word) (c : BitVec 4), Codec.dec ibuf = .ok v c r →
    ((Codec.enc v).length = c.toNat ↔ ibuf.take c.toNat = Codec.enc v)

/-- 42_codec_laws.md R126: different values have different encodings, and different inputs can have one value. -/
def Obligations.EncodingIsInjectiveDecodingIsNot : Prop :=
  (∀ v w : Word, Codec.enc v = Codec.enc w → v = w) ∧
    ∃ (a b : List Byte) (v : Word) (c c' : BitVec 4), a ≠ b ∧ Codec.dec a = .ok v c [] ∧ Codec.dec b = .ok v c' []

/-- 42_codec_laws.md R129: what more bytes can change, and what they cannot. -/
def Obligations.SuffixChangesOnlyTruncatedVerdicts : Prop :=
  (∀ (s t r : List Byte) (v : Word) (c : BitVec 4), Codec.dec s = .ok v c r → Codec.dec (s ++ t) = .ok v c (r ++ t)) ∧
  (∀ s t : List Byte, Codec.dec s = .failed .overlong → Codec.dec (s ++ t) = .failed .overlong) ∧
  (∀ s : List Byte, Codec.dec s = .failed .truncated →
    (∃ t, Codec.dec (s ++ t) = .failed .overlong) ∧ (∃ t v c r, Codec.dec (s ++ t) = .ok v c r))

/-- 42_codec_laws.md R130: a larger value has no shorter encoding. -/
def Obligations.LargerValuesHaveNoShorterEncodings : Prop :=
  ∀ v w : Word, v.toNat ≤ w.toNat → (Codec.enc v).length ≤ (Codec.enc w).length

/-- 30_encoding.md R57: the values of each length are those between two powers of `2^7`. -/
def Obligations.LengthIsToldByPowersOf128 : Prop :=
  ∀ (v : Word) (k : Nat), 1 ≤ k → k ≤ 10 →
    ((Codec.enc v).length = k ↔ (k = 1 ∨ 2 ^ (7 * (k - 1)) ≤ v.toNat) ∧ v.toNat < 2 ^ (7 * k))

/-- 41_decoder.md R99: padded encodings are accepted, `CONSUMED` counting all of their bytes. -/
def Obligations.PaddedEncodingsAreAccepted : Prop :=
  ∀ (v : Word) (p : Nat), (Codec.padded v p).length ≤ 10 →
    Codec.dec (Codec.padded v p) = .ok v (BitVec.ofNat 4 (Codec.padded v p).length) []

/-- The source's own table of values and bytes, all seven rows (95_test_vectors.md section 1.1). -/
def Obligations.SourceExamplesEncode : Prop :=
  Codec.enc 0#64 = [0x00#8] ∧ Codec.enc 1#64 = [0x01#8] ∧ Codec.enc 127#64 = [0x7F#8] ∧
    Codec.enc 128#64 = [0x80#8, 0x01#8] ∧
    Codec.enc 300#64 = [0xAC#8, 0x02#8] ∧ Codec.enc 16384#64 = [0x80#8, 0x80#8, 0x01#8] ∧
    Codec.enc 0xFFFFFFFFFFFFFFFF#64 = List.replicate 9 0xFF#8 ++ [0x01#8]

/-! ### The whole machine -/

/-- Reset meets the invariant, whose clause on the buffers of a unit in IDLE is the model's choice (log 6). -/
def Obligations.ResetMeetsInvariant : Prop := State.reset.Inv

/-- Every step keeps the invariant of the registers, buffers and responses (10_state.md R13 to R17, 20_memory.md R31,
40_encoder.md R75, 41_decoder.md R98), from every state that meets it. Its clause that a unit in IDLE holds no buffer is
the model's choice (log 6). -/
def Obligations.EveryStepKeepsInvariant : Prop :=
  ∀ s t : State, s.Inv → step s = .next t → t.Inv

/-- 40_encoder.md R74, 41_decoder.md R98, 70_reset_and_hazards.md R179: under the invariant and with moves that a host
can make, no step stops: no primitive is used where the spec gives it no meaning (00_scope.md R9, 20_memory.md R33,
U1), and this goes on. -/
def Obligations.NoStepStopsUnderInvariant : Prop :=
  ∀ s : State, s.Inv → s.hostOk → ∃ t, step s = .next t ∧ t.Inv ∧ t.hostOk

/-- 40_encoder.md R77, 41_decoder.md R91: both operations answer a next state in every state, whatever the operand. For
a unit in RUN, of which R77 and R91 do not speak and where R175 accepts nothing, this is the model's choice (log 5). -/
def Obligations.OperationsAnswerInEveryState : Prop :=
  ∀ s : State, (∀ v : Word, Goes (exec (.encode v) s)) ∧
    ∀ ibuf : List Byte, Goes (exec (.decode ibuf ibuf.length) s)

/-- 70_reset_and_hazards.md R179, R175: a unit in RUN gets to its response in at most 10 turns of ENC, or 11 of DEC,
from every state that meets the invariant, when no further request waits. -/
def Obligations.RunningUnitRespondsWithinBound : Prop :=
  (∀ s : State, s.Inv → s.enc.ph = .run → s.enc.req = none → s.moves = List.replicate 10 (.turn .enc) →
      ∃ t : State, stepN 10 s = .next t ∧ t.enc.ph = .idle ∧
        t.enc.resp.isSome = true) ∧
  (∀ s : State, s.Inv → s.dec.ph = .run → s.dec.req = none → s.moves = List.replicate 11 (.turn .dec) →
      ∃ t : State, stepN 11 s = .next t ∧ t.dec.ph = .idle ∧
        t.dec.resp.isSome = true)

/-- 10_state.md R10, 40_encoder.md R78, 41_decoder.md R103: a step of one unit, or an operation of it, leaves the other
unit as it was. -/
def Obligations.UnitsDoNotTouchEachOther : Prop :=
  ∀ (s t : State) (ms : List Move),
    (s.moves = .turn .enc :: ms → step s = .next t → t.dec = s.dec ∧ t.moves = ms) ∧
    (s.moves = .turn .dec :: ms → step s = .next t → t.enc = s.enc ∧ t.moves = ms) ∧
    (∀ v : Word, exec (.encode v) s = .next t → t.dec = s.dec ∧ t.moves = s.moves) ∧
    (∀ i : Instr, (∀ v : Word, i ≠ .encode v) → exec i s = .next t → t.enc = s.enc ∧ t.moves = s.moves)

/-- 70_reset_and_hazards.md R177, 95_test_vectors.md P5: the order of a turn of ENC and a turn of DEC does not matter. -/
def Obligations.TurnsOfTheTwoUnitsCommute : Prop :=
  ∀ (s : State) (ms : List Move), s.Inv →
    ∃ t : State, stepN 2 { s with moves := .turn .enc :: .turn .dec :: ms } = .next t ∧
      stepN 2 { s with moves := .turn .dec :: .turn .enc :: ms } = .next t ∧ t.moves = ms

/-- 10_state.md R11, 42_codec_laws.md R128, 60_exceptions.md R149: what an operation leaves in its unit depends on its
request alone, whatever the two states' history, failed operations included. The whole unit is compared: its registers
and response, and also what the model chooses, the empty buffer (log 6) and the line from which a request that stood
there is gone (log 5). -/
def Obligations.OperationsDependOnRequestAlone : Prop :=
  ∀ s s' : State,
    (∀ v : Word, s.enc.ph = .idle → s'.enc.ph = .idle →
      ∃ t t', exec (.encode v) s = .next t ∧ exec (.encode v) s' = .next t' ∧ t.enc = t'.enc) ∧
    (∀ ibuf : List Byte, s.dec.ph = .idle → s'.dec.ph = .idle →
      ∃ t t', exec (.decode ibuf ibuf.length) s = .next t ∧ exec (.decode ibuf ibuf.length) s' = .next t' ∧
        t.dec = t'.dec)

end Statements
end

