-- ==== Sys2Proof/Laws/Bits.lean ====
section
/-! SUPPORT. The bits of a varint byte (30_encoding.md R50, R59) and the arithmetic of the two units (00_scope.md R9). -/

namespace Sys2Proof

/-- Bit 7 splits the bytes at `0x80` (30_encoding.md R59). -/
theorem contFlag_eq_decide (b : Byte) : contFlag b = decide (0x80 ≤ b.toNat) := by
  revert b; decide

/-- The group is the byte without its flag (30_encoding.md R50). -/
theorem groupOf_toNat (b : Byte) : (groupOf b).toNat = b.toNat % 128 := by
  revert b; decide

@[simp] theorem contFlag_contByteOf (d : Group) : contFlag (contByteOf d) = true := by revert d; decide
@[simp] theorem contFlag_lastByteOf (d : Group) : contFlag (lastByteOf d) = false := by revert d; decide
@[simp] theorem groupOf_contByteOf (d : Group) : groupOf (contByteOf d) = d := by revert d; decide
@[simp] theorem groupOf_lastByteOf (d : Group) : groupOf (lastByteOf d) = d := by revert d; decide

/-- A continuation byte is the byte of its group. -/
theorem contByteOf_groupOf {b : Byte} (h : contFlag b = true) : contByteOf (groupOf b) = b := by
  revert b; decide

/-- A terminating byte is the byte of its group. -/
theorem lastByteOf_groupOf {b : Byte} (h : contFlag b = false) : lastByteOf (groupOf b) = b := by
  revert b; decide

namespace Machine

/-- The encoder's continuation byte is the byte of class `GROUP_CONT` with the low group (40_encoder.md R73). -/
theorem contByte_eq (v : Word) : contByte v = contByteOf (v.setWidth 7) := by
  apply BitVec.eq_of_getLsbD_eq
  intro i hi
  simp only [contByte, contByteOf, BitVec.getLsbD_setWidth, BitVec.getLsbD_or, BitVec.getLsbD_and]
  have : i = 0 ∨ i = 1 ∨ i = 2 ∨ i = 3 ∨ i = 4 ∨ i = 5 ∨ i = 6 ∨ i = 7 := by omega
  rcases this with rfl | rfl | rfl | rfl | rfl | rfl | rfl | rfl <;> simp

/-- The encoder's final byte is the byte of class `GROUP_LAST` with the low group (40_encoder.md R74). -/
theorem lastByte_eq (v : Word) : lastByte v = lastByteOf (v.setWidth 7) := by
  apply BitVec.eq_of_getLsbD_eq
  intro i hi
  simp only [lastByte, lastByteOf, BitVec.getLsbD_setWidth, BitVec.getLsbD_and]
  have : i = 0 ∨ i = 1 ∨ i = 2 ∨ i = 3 ∨ i = 4 ∨ i = 5 ∨ i = 6 ∨ i = 7 := by omega
  rcases this with rfl | rfl | rfl | rfl | rfl | rfl | rfl | rfl <;> simp

/-- The low group of a value. -/
theorem lowGroup_toNat (v : Word) : (v.setWidth 7).toNat = v.toNat % 128 := by
  simp [BitVec.toNat_setWidth]

/-- `v >> 7` is the quotient by 128 (00_scope.md R9). -/
theorem shr7_toNat (v : Word) : (shr7 v).toNat = v.toNat / 128 := by
  simp [shr7, BitVec.toNat_ushiftRight, Nat.shiftRight_eq_div_pow]

/-- The counter's sum, where it has one (00_scope.md R9). -/
theorem countUp_of_le {a : BitVec 4} (h : a.toNat ≤ 9) : countUp a = some (a + 1#4) := by
  have : a.toNat < 10 := by omega
  simp [countUp, Config.maxLen, this]

/-- All that counting can do. -/
theorem countUp_eq_some {a a' : BitVec 4} : countUp a = some a' ↔ a.toNat ≤ 9 ∧ a' = a + 1#4 := by
  unfold countUp
  split
  · rename_i h
    have : a.toNat ≤ 9 := by simp only [Config.maxLen] at h; omega
    simp [this, eq_comm]
  · rename_i h
    have : ¬ a.toNat ≤ 9 := by simp only [Config.maxLen] at h; omega
    simp [this]

/-- The counter goes up by exactly 1 within its range. -/
theorem count_toNat {a : BitVec 4} (h : a.toNat ≤ 9) : (a + 1#4).toNat = a.toNat + 1 := by
  rw [BitVec.toNat_add]
  simp
  omega

/-- ORing a group in at bit `k`, above every bit already set, is addition modulo `2^64` (30_encoding.md R52,
41_decoder.md R94, R96). -/
theorem or_shift_toNat (acc x : Word) (k : Nat) (hk : k ≤ 63) (h : acc.toNat < 2 ^ k) :
    (acc ||| x <<< k).toNat = (acc.toNat + x.toNat * 2 ^ k) % 2 ^ 64 := by
  have hs : (x.toNat * 2 ^ k) % 2 ^ 64 = (x.toNat % 2 ^ (64 - k)) * 2 ^ k := by
    have : (2 : Nat) ^ 64 = 2 ^ (64 - k) * 2 ^ k := by rw [← Nat.pow_add]; congr 1; omega
    rw [this, Nat.mul_mod_mul_right]
  have hlt : (x.toNat % 2 ^ (64 - k)) * 2 ^ k + acc.toNat < 2 ^ 64 := by
    have h1 : x.toNat % 2 ^ (64 - k) < 2 ^ (64 - k) := Nat.mod_lt _ (by positivity)
    have h2 : (2 : Nat) ^ 64 = 2 ^ (64 - k) * 2 ^ k := by rw [← Nat.pow_add]; congr 1; omega
    nlinarith
  rw [BitVec.toNat_or, BitVec.toNat_shiftLeft, Nat.shiftLeft_eq, hs, Nat.or_comm, ← Nat.shiftLeft_eq,
    ← Nat.shiftLeft_add_eq_or_of_lt h, Nat.shiftLeft_eq, Nat.add_mod, hs, Nat.mod_eq_of_lt (a := acc.toNat)]
  · rw [Nat.add_comm acc.toNat, Nat.mod_eq_of_lt hlt]
  · exact lt_of_lt_of_le h (Nat.pow_le_pow_right (by omega) (by omega))

end Machine

end Sys2Proof
end

