-- ==== Sys2Proof/Laws/State.lean ====
section
/-! SUPPORT. One lemma per field per update of State, so that no proof unfolds a record update. -/

namespace Sys2Proof.Machine

variable (s : State) (e : EncUnit) (d : DecUnit) (ms : List Move)

@[simp] theorem State.setEnc_enc : (s.setEnc e).enc = e := rfl
@[simp] theorem State.setEnc_dec : (s.setEnc e).dec = s.dec := rfl
@[simp] theorem State.setEnc_moves : (s.setEnc e).moves = s.moves := rfl
@[simp] theorem State.setDec_enc : (s.setDec d).enc = s.enc := rfl
@[simp] theorem State.setDec_dec : (s.setDec d).dec = d := rfl
@[simp] theorem State.setDec_moves : (s.setDec d).moves = s.moves := rfl
@[simp] theorem State.setMoves_enc : (s.setMoves ms).enc = s.enc := rfl
@[simp] theorem State.setMoves_dec : (s.setMoves ms).dec = s.dec := rfl
@[simp] theorem State.setMoves_moves : (s.setMoves ms).moves = ms := rfl
@[simp] theorem State.setMoves_self : s.setMoves s.moves = s := rfl
@[simp] theorem State.setMoves_setMoves (ms' : List Move) : (s.setMoves ms).setMoves ms' = s.setMoves ms' := rfl

@[simp] theorem resetUnits_enc : (resetUnits s).enc = EncUnit.afterReset s.enc.req := rfl
@[simp] theorem resetUnits_dec : (resetUnits s).dec = DecUnit.afterReset s.dec.req := rfl
@[simp] theorem resetUnits_moves : (resetUnits s).moves = s.moves := rfl

section EncUpdates
variable (v : Word)

@[simp] theorem encStart_v : (encStart v).v = v := rfl
@[simp] theorem encStart_n : (encStart v).n = 0#4 := rfl
@[simp] theorem encStart_ph : (encStart v).ph = .run := rfl
@[simp] theorem encStart_obuf : (encStart v).obuf = [] := rfl
@[simp] theorem encStart_req : (encStart v).req = none := rfl
@[simp] theorem encStart_resp : (encStart v).resp = none := rfl
@[simp] theorem encRespond_v : (encRespond e).v = e.v := rfl
@[simp] theorem encRespond_n : (encRespond e).n = e.n := rfl
@[simp] theorem encRespond_ph : (encRespond e).ph = .idle := rfl
@[simp] theorem encRespond_obuf : (encRespond e).obuf = [] := rfl
@[simp] theorem encRespond_req : (encRespond e).req = e.req := rfl
@[simp] theorem encRespond_resp : (encRespond e).resp = some ⟨e.obuf, e.n⟩ := rfl
@[simp] theorem encPresent_req : (encPresent v e).req = some v := rfl
@[simp] theorem encPresent_ph : (encPresent v e).ph = e.ph := rfl
@[simp] theorem encPresent_resp : (encPresent v e).resp = e.resp := rfl
@[simp] theorem encTake_resp : (encTake e).resp = none := rfl
@[simp] theorem encTake_ph : (encTake e).ph = e.ph := rfl
@[simp] theorem encTake_req : (encTake e).req = e.req := rfl

end EncUpdates

section DecUpdates
variable (r : DecRequest) (w : DecResponse) (k : Failure)

@[simp] theorem decStart_acc : (decStart r).acc = 0#64 := rfl
@[simp] theorem decStart_sh : (decStart r).sh = 0#7 := rfl
@[simp] theorem decStart_i : (decStart r).i = 0#4 := rfl
@[simp] theorem decStart_ph : (decStart r).ph = .run := rfl
@[simp] theorem decStart_ibuf : (decStart r).ibuf = r.ibuf := rfl
@[simp] theorem decStart_n : (decStart r).n = r.n := rfl
@[simp] theorem decStart_req : (decStart r).req = none := rfl
@[simp] theorem decStart_resp : (decStart r).resp = none := rfl
@[simp] theorem decRespond_acc : (decRespond w d).acc = d.acc := rfl
@[simp] theorem decRespond_sh : (decRespond w d).sh = d.sh := rfl
@[simp] theorem decRespond_i : (decRespond w d).i = d.i := rfl
@[simp] theorem decRespond_ph : (decRespond w d).ph = .idle := rfl
@[simp] theorem decRespond_ibuf : (decRespond w d).ibuf = [] := rfl
@[simp] theorem decRespond_n : (decRespond w d).n = 0 := rfl
@[simp] theorem decRespond_req : (decRespond w d).req = d.req := rfl
@[simp] theorem decRespond_resp : (decRespond w d).resp = some w := rfl
@[simp] theorem decPresent_req : (decPresent r d).req = some r := rfl
@[simp] theorem decPresent_ph : (decPresent r d).ph = d.ph := rfl
@[simp] theorem decPresent_resp : (decPresent r d).resp = d.resp := rfl
@[simp] theorem decTake_resp : (decTake d).resp = none := rfl
@[simp] theorem decTake_ph : (decTake d).ph = d.ph := rfl
@[simp] theorem decTake_req : (decTake d).req = d.req := rfl

/-- Taking an exception responds with the kind and nothing else (60_exceptions.md R146, R147). -/
theorem decRaise_eq_decRespond : decRaise k d = decRespond (.failed k) d := rfl

end DecUpdates

/-- A lifted ENC step answers next exactly when the unit's step does. -/
@[simp] theorem liftEnc_eq_next {x : Except Fault EncUnit} {t : State} :
    liftEnc s x = .next t ↔ ∃ e', x = .ok e' ∧ t = s.setEnc e' := by
  cases x <;> simp [liftEnc, eq_comm]

/-- A lifted DEC step answers next exactly when the unit's step does. -/
@[simp] theorem liftDec_eq_next {x : Except Fault DecUnit} {t : State} :
    liftDec s x = .next t ↔ ∃ d', x = .ok d' ∧ t = s.setDec d' := by
  cases x <;> simp [liftDec, eq_comm]

@[simp] theorem liftEnc_ok : liftEnc s (.ok e) = .next (s.setEnc e) := rfl
@[simp] theorem liftDec_ok : liftDec s (.ok d) = .next (s.setDec d) := rfl

end Sys2Proof.Machine
end

