-- ==== Sys2Proof/Laws/Buffers.lean ====
section
/-! SUPPORT. The buffers' primitives (20_memory.md R33, R34) and the canonical form of their view as cells. -/

namespace Sys2Proof.Machine

/-- All that `MemRead` can do (20_memory.md R33). -/
theorem memRead_eq_some {buf : List Byte} {n i : Nat} {b : Byte} :
    memRead buf n i = some b ↔ i < n ∧ buf[i]? = some b := by
  unfold memRead; split <;> simp_all

/-- A read inside a buffer of length `N` answers (20_memory.md R33). -/
theorem memRead_of_lt {buf : List Byte} {i : Nat} (h : i < buf.length) :
    memRead buf buf.length i = some buf[i] := by
  simp [memRead, h]

/-- All that `MemWrite` can do (20_memory.md R34): replace a byte, or add the next one. -/
theorem memWrite_eq_some {buf out : List Byte} {k : Nat} {b : Byte} :
    memWrite buf k b = some out ↔
      (k < buf.length ∧ out = buf.set k b) ∨ (k = buf.length ∧ out = buf ++ [b]) := by
  unfold memWrite
  split
  · rename_i h
    simp only [Option.some.injEq, h, true_and, Nat.ne_of_lt h, false_and, or_false, eq_comm]
  · split
    · rename_i h h'
      simp [h', eq_comm]
    · simp_all

/-- The write the encoder makes: the next offset (20_memory.md R34, R38). -/
theorem memWrite_next (buf : List Byte) (b : Byte) : memWrite buf buf.length b = some (buf ++ [b]) := by
  simp [memWrite]

/-- The cells of every buffer are in canonical form. -/
theorem Memory.cells_wf (buf : List Byte) : Memory.wf (Memory.cells buf) = true := by
  have h : (buf.zipIdx.map fun p => (p.2, p.1)).map Prod.fst = buf.zipIdx.map Prod.snd := by
    rw [List.map_map]; rfl
  unfold Memory.wf Memory.cells
  rw [h, List.zipIdx_map_snd, List.length_map, List.length_zipIdx, List.range_eq_range']
  exact beq_self_eq_true _

/-- A write keeps the canonical form. -/
theorem Memory.wf_memWrite {buf out : List Byte} {k : Nat} {b : Byte} (_ : memWrite buf k b = some out) :
    Memory.wf (Memory.cells out) = true := Memory.cells_wf out

end Sys2Proof.Machine
end

