-- ==== Sys2Proof/Laws/PerInstr.lean ====
section
/-! SUPPORT. The family of statements made per instruction: the word that the encoder writes is one of the instruction's own
row of spec/opcode_table.json, under the row's mask. -/

namespace Sys2Proof.Laws.TableRow

/-- The number that the table's `mask` and `match` speak of: the tag, or the byte. -/
def wordOf : Wire → Nat
  | .op r => r.op.toNat
  | .vb b => b.toNat

/-- The row's `mask` (spec/opcode_table.json). -/
def mask : Instr → Nat
  | .encode _ => 0x1
  | .decode _ _ => 0x1
  | .groupLast _ => 0x80
  | .groupCont _ => 0x80

/-- The row's `match` (spec/opcode_table.json). -/
def pattern : Instr → Nat
  | .encode _ => 0x0
  | .decode _ _ => 0x1
  | .groupLast _ => 0x00
  | .groupCont _ => 0x80

/-- The encoded word matches the instruction's row. -/
def Statement (i : Instr) : Prop := wordOf (Sys2Proof.encode i) &&& mask i = pattern i

theorem encode (v : Word) : Statement (.encode v) := by
  simp [Statement, wordOf, mask, pattern, Sys2Proof.encode]

theorem decode (ibuf : List Byte) (n : Nat) : Statement (.decode ibuf n) := by
  simp [Statement, wordOf, mask, pattern, Sys2Proof.encode]

theorem groupLast (d : Group) : Statement (.groupLast d) := by
  show (lastByteOf d).toNat &&& 0x80 = 0
  revert d; decide

theorem groupCont (d : Group) : Statement (.groupCont d) := by
  show (contByteOf d).toNat &&& 0x80 = 0x80
  revert d; decide

end Sys2Proof.Laws.TableRow
end

