-- ==== Sys2Proof/Laws/Units.lean ====
section
/-! SUPPORT. What each shared operation of the two units can do, said once (40_encoder.md R73, R74, 41_decoder.md R93 to R97). -/

namespace Sys2Proof.Machine

/-! ### ENC -/

/-- All that emitting a byte can do. -/
theorem encEmit_eq_ok {e e' : EncUnit} {b : Byte} :
    encEmit e b = .ok e' ↔
      ∃ out, memWrite e.obuf e.n.toNat b = some out ∧ e.n.toNat ≤ 9 ∧ e' = { e with obuf := out, n := e.n + 1#4 } := by
  unfold encEmit
  cases hw : memWrite e.obuf e.n.toNat b with
  | none => simp
  | some out =>
    cases hc : countUp e.n with
    | none =>
      have hn : ¬ e.n.toNat ≤ 9 := fun h => by rw [countUp_of_le h] at hc; cases hc
      simp [hn]
    | some n' =>
      obtain ⟨hn, rfl⟩ := countUp_eq_some.1 hc
      simp [hn, eq_comm]

/-- Emitting the next byte in order, while fewer than 10 are out. -/
theorem encEmit_next {e : EncUnit} (b : Byte) (hl : e.obuf.length = e.n.toNat) (hn : e.n.toNat ≤ 9) :
    encEmit e b = .ok { e with obuf := e.obuf ++ [b], n := e.n + 1#4 } :=
  encEmit_eq_ok.2 ⟨_, by rw [← hl]; exact memWrite_next _ _, hn, rfl⟩

/-- The continuation step in order (40_encoder.md R73). -/
theorem encStep_of_ge {e : EncUnit} (hv : 0x80 ≤ e.v.toNat) (hl : e.obuf.length = e.n.toNat) (hn : e.n.toNat ≤ 9) :
    encStep e = .ok { e with obuf := e.obuf ++ [contByte e.v], n := e.n + 1#4, v := shr7 e.v } := by
  have : 0x80#64 ≤ e.v := by simpa [BitVec.le_def] using hv
  simp [encStep, this, encStepCont, encEmit_next _ hl hn]

/-- The last step in order (40_encoder.md R74). -/
theorem encStep_of_lt {e : EncUnit} (hv : e.v.toNat < 0x80) (hl : e.obuf.length = e.n.toNat) (hn : e.n.toNat ≤ 9) :
    encStep e = .ok (encRespond { e with obuf := e.obuf ++ [lastByte e.v], n := e.n + 1#4 }) := by
  have : ¬ 0x80#64 ≤ e.v := by simpa [BitVec.le_def] using hv
  simp [encStep, this, encStepLast, encEmit_next _ hl hn]

/-- A turn never sets the request line: it keeps the request or accepts it. -/
theorem encTurn_req {e e' : EncUnit} (h : encTurn e = .ok e') : e'.req = e.req ∨ e'.req = none := by
  unfold encTurn at h
  split at h
  · unfold encStep encStepCont encStepLast at h
    split at h <;> split at h
    · cases h
    · rename_i hm; obtain ⟨_, _, _, rfl⟩ := encEmit_eq_ok.1 hm; cases h; exact .inl rfl
    · cases h
    · rename_i hm; obtain ⟨_, _, _, rfl⟩ := encEmit_eq_ok.1 hm; cases h; exact .inl rfl
  · split at h
    · cases h; exact .inr rfl
    · cases h; exact .inl rfl

/-! ### DEC -/

/-- All that accumulating can do (41_decoder.md R94). -/
theorem accumulate_eq_ok {d : Group} {u u' : DecUnit} :
    accumulate d u = .ok u' ↔
      u.sh.toNat ≤ 63 ∧ u.i.toNat ≤ 9 ∧
        u' = { u with acc := u.acc ||| (d.setWidth 64 <<< u.sh.toNat), i := u.i + 1#4 } := by
  unfold accumulate
  split
  · rename_i h
    have hs : u.sh.toNat ≤ 63 := by omega
    cases hc : countUp u.i with
    | none =>
      simp only [reduceCtorEq, false_iff, not_and]
      intro _ hi
      rw [countUp_of_le hi] at hc
      cases hc
    | some i' =>
      obtain ⟨hi, rfl⟩ := countUp_eq_some.1 hc
      simp [hs, hi, shl64, zext64, eq_comm]
  · rename_i h
    have hs : ¬ u.sh.toNat ≤ 63 := by omega
    simp [hs]

/-- Accumulating within the ranges of the registers (41_decoder.md R94). -/
theorem accumulate_of_le {u : DecUnit} (d : Group) (hs : u.sh.toNat ≤ 63) (hi : u.i.toNat ≤ 9) :
    accumulate d u = .ok { u with acc := u.acc ||| (d.setWidth 64 <<< u.sh.toNat), i := u.i + 1#4 } :=
  accumulate_eq_ok.2 ⟨hs, hi, rfl⟩

/-- All that the step of a terminating byte can do (41_decoder.md R95). -/
theorem groupLastStep_eq_ok {d : Group} {u u' : DecUnit} :
    groupLastStep d u = .ok u' ↔ ∃ w, accumulate d u = .ok w ∧ u' = decRespondOk w := by
  unfold groupLastStep
  cases accumulate d u <;> simp [eq_comm]

/-- All that the step of a continuation byte can do (41_decoder.md R97). -/
theorem groupContStep_eq_ok {d : Group} {u u' : DecUnit} :
    groupContStep d u = .ok u' ↔ ∃ w, accumulate d u = .ok w ∧ u' = advanceShift w := by
  unfold groupContStep
  cases accumulate d u <;> simp [eq_comm]

/-- `D.SH + 7` within its 7 bits (41_decoder.md R97). -/
theorem shift_toNat {sh : BitVec 7} (h : sh.toNat ≤ 63) : (sh + 7#7).toNat = sh.toNat + 7 := by
  rw [BitVec.toNat_add]
  simp
  omega

/-- The shift stays within the register: the unit goes on (41_decoder.md R97). -/
theorem advanceShift_of_le {u : DecUnit} (h : u.sh.toNat + 7 ≤ 64) : advanceShift u = { u with sh := u.sh + 7#7 } := by
  have := shift_toNat (sh := u.sh) (by omega)
  have hn : ¬ Config.shiftLimit < (u.sh + 7#7).toNat := by simp only [Config.shiftLimit]; omega
  simp only [advanceShift, if_neg hn]

/-- The shift passes the register: Overlong (41_decoder.md R97). -/
theorem advanceShift_of_gt {u : DecUnit} (h : 64 < u.sh.toNat + 7) (hs : u.sh.toNat ≤ 63) :
    advanceShift u = decRaise .overlong { u with sh := u.sh + 7#7 } := by
  have := shift_toNat hs
  have hn : Config.shiftLimit < (u.sh + 7#7).toNat := by simp only [Config.shiftLimit]; omega
  simp only [advanceShift, if_pos hn]

/-- When a byte step is enabled (41_decoder.md R94). -/
theorem byteStepEnabled_iff {u : DecUnit} : byteStepEnabled u = true ↔ u.ph = .run ∧ u.i.toNat < u.n := by
  simp [byteStepEnabled]

/-- All that a step of the DEC unit can do (41_decoder.md R93 to R97). -/
theorem decStep_cases (u : DecUnit) :
    (u.n ≤ u.i.toNat ∧ decStep u = .ok (decEndOfInput u)) ∨
    (u.i.toNat < u.n ∧ u.ibuf[u.i.toNat]? = none ∧ decStep u = .error .readOutsideIbuf) ∨
    ∃ b, u.i.toNat < u.n ∧ u.ibuf[u.i.toNat]? = some b ∧
      decStep u = if contFlag b then groupContStep (groupOf b) u else groupLastStep (groupOf b) u := by
  by_cases h : u.n ≤ u.i.toNat
  · exact .inl ⟨h, by simp [decStep, h]⟩
  · have hlt : u.i.toNat < u.n := by omega
    cases hb : u.ibuf[u.i.toNat]? with
    | none => exact .inr (.inl ⟨hlt, rfl, by simp [decStep, h, memRead, hlt, hb]⟩)
    | some b => exact .inr (.inr ⟨b, hlt, rfl, by simp [decStep, h, memRead, hlt, hb]⟩)

end Sys2Proof.Machine
end

