-- ==== Sys2Proof/Laws/Step.lean ====
section
/-! SUPPORT. What a step does for each move, said once: no proof unfolds `step` or `fetch`. -/

namespace Sys2Proof.Machine

variable {s : State} {ms : List Move}

/-- A step with a move to come does what the move says. -/
theorem step_eq_fetchMove {m : Move} (h : s.moves = m :: ms) : step s = runFetched (fetchMove m (s.setMoves ms)) := by
  unfold step fetch
  rw [h]

/-- A called request runs the operation of its tag. -/
theorem step_call {r : OpWord} (h : s.moves = .call r :: ms) :
    step s = match decode (.op r) with
      | .ok i => exec i (s.setMoves ms)
      | .error e => .refused (.badRequest e) := by
  rw [step_eq_fetchMove h, fetchMove]
  cases decode (.op r) <;> rfl

/-- A presented request stands on its unit's line. -/
theorem step_present {r : OpWord} (h : s.moves = .present r :: ms) :
    step s = match decode (.op r) with
      | .ok i => present i (s.setMoves ms)
      | .error e => .refused (.badRequest e) := by
  rw [step_eq_fetchMove h, fetchMove]
  cases decode (.op r) <;> rfl

/-- A turn of the ENC unit (40_encoder.md R72 to R74). -/
theorem step_turn_enc (h : s.moves = .turn .enc :: ms) : step s = liftEnc (s.setMoves ms) (encTurn s.enc) := by
  rw [step_eq_fetchMove h]; rfl

/-- A turn of the DEC unit in RUN is the unit's own step: the end of the input, or the instruction of the class of the
byte at `IBUF[D.I]` (41_decoder.md R93, R94). -/
theorem runFetched_decUnitTurn_run (hp : s.dec.ph = .run) :
    runFetched (decUnitTurn s) = liftDec s (decStep s.dec) := by
  unfold decUnitTurn
  rw [hp]
  rcases decStep_cases s.dec with ⟨hn, hd⟩ | ⟨hn, hb, hd⟩ | ⟨b, hn, hb, hd⟩
  · simp [hn, hd, runFetched]
  · simp [Nat.not_le.2 hn, hd, memRead, hn, hb, runFetched, liftDec]
  · have he : byteStepEnabled s.dec = true := byteStepEnabled_iff.2 ⟨hp, hn⟩
    have hm : memRead s.dec.ibuf s.dec.n s.dec.i.toNat = some b := memRead_eq_some.2 ⟨hn, hb⟩
    simp only [Nat.not_le.2 hn, if_false, hm, hd, runFetched, decodeByte]
    cases contFlag b <;> simp [exec, execGroupCont, execGroupLast, he]

/-- The step of a move that gives the DEC unit its turn, in RUN. -/
theorem step_turn_dec_run (h : s.moves = .turn .dec :: ms) (hp : s.dec.ph = .run) :
    step s = liftDec (s.setMoves ms) (decStep s.dec) := by
  rw [step_eq_fetchMove h]
  exact runFetched_decUnitTurn_run (s := s.setMoves ms) hp

/-- A turn of an IDLE DEC unit: it accepts the request presented, if any (41_decoder.md R92). -/
theorem step_turn_dec_idle (h : s.moves = .turn .dec :: ms) (hp : s.dec.ph = .idle) :
    step s = .next (match s.dec.req with
      | some r => (s.setMoves ms).setDec (decStart r)
      | none => s.setMoves ms) := by
  rw [step_eq_fetchMove h]
  show runFetched (decUnitTurn (s.setMoves ms)) = _
  unfold decUnitTurn
  simp only [State.setMoves_dec, hp]
  cases s.dec.req <;> rfl

/-- The host takes the ENC response. -/
theorem step_take_enc (h : s.moves = .take .enc :: ms) : step s = .next ((s.setMoves ms).setEnc (encTake s.enc)) := by
  rw [step_eq_fetchMove h]; rfl

/-- The host takes the DEC response. -/
theorem step_take_dec (h : s.moves = .take .dec :: ms) : step s = .next ((s.setMoves ms).setDec (decTake s.dec)) := by
  rw [step_eq_fetchMove h]; rfl

/-- Reset (70_reset_and_hazards.md R170). -/
theorem step_reset (h : s.moves = .reset :: ms) : step s = .next (resetUnits (s.setMoves ms)) := by
  rw [step_eq_fetchMove h]; rfl

/-- With no move left, a ready unit takes its turn, DEC first, else nothing happens (log 2). -/
theorem step_free (h : s.moves = []) :
    step s =
      if decReady s.dec then runFetched (decUnitTurn s)
      else if encReady s.enc then liftEnc s (encTurn s.enc)
      else .next s := by
  unfold step fetch
  rw [h]
  simp only [freeTurn]
  split
  · rfl
  · split <;> rfl

end Sys2Proof.Machine
end

