-- ==== Sys2Proof/Laws/Run.lean ====
section
/-! SUPPORT. Runs of several steps. -/

namespace Sys2Proof.Machine

@[simp] theorem stepN_zero (s : State) : stepN 0 s = .next s := rfl

/-- One step, then the rest. -/
theorem stepN_succ {s t : State} (k : Nat) (h : step s = .next t) : stepN (k + 1) s = stepN k t := by
  simp [stepN, h]

/-- A run is cut anywhere. -/
theorem stepN_add {s t : State} {j : Nat} (k : Nat) (h : stepN j s = .next t) : stepN (j + k) s = stepN k t := by
  induction j generalizing s with
  | zero => cases h; rw [Nat.zero_add]
  | succ j ih =>
    unfold stepN at h
    cases hs : step s with
    | next w =>
      rw [hs] at h
      rw [Nat.succ_add, stepN_succ _ hs, ih h]
    | fault r => rw [hs] at h; cases h
    | refused r => rw [hs] at h; cases h

end Sys2Proof.Machine
end

