-- ==== Sys2Proof/Tests/Slice0.lean ====
section
/-! SUPPORT. The model's own tests. Expected results are the spec's: its words (30_encoding.md R59, R64), its worked examples
and its traces (40_encoder.md, 41_decoder.md, 95_test_vectors.md). After them, one witness for each statement of
Certificates/Slice0/Obligations.lean that has hypotheses. -/

namespace Sys2Proof.Tests

open Machine

/-! ### Helpers -/

/-- The next state, if the answer is one. -/
def nextState : Result → Option State
  | .next s => some s
  | _ => none

/-- Reset, with these moves to come. -/
def withMoves (ms : List Move) : State := { State.reset with moves := ms }

/-- Reset, with the ENC unit in RUN. -/
def encRunning (v : Word) (n : BitVec 4) (obuf : List Byte) (ms : List Move) : State :=
  { State.reset with enc := { v := v, n := n, ph := .run, obuf := obuf, req := none, resp := none }, moves := ms }

/-- Reset, with the DEC unit in RUN on `ibuf`. -/
def decRunning (acc : Word) (sh : BitVec 7) (i : BitVec 4) (ibuf : List Byte) (ms : List Move) : State :=
  { State.reset with
    dec := { acc := acc, sh := sh, i := i, ph := .run, ibuf := ibuf, n := ibuf.length, req := none, resp := none }
    moves := ms }

/-! ### Well-formedness -/

/-- 10_state.md R22: `N` is the length of `IBUF`. -/
theorem test_wf_refuses_wrong_length : (Instr.decode [0x80#8] 2).wf = false := by decide

theorem test_wf_accepts_right_length : (Instr.decode [0x80#8, 0x01#8] 2).wf = true := by decide

/-! ### Decoding, words written out from 30_encoding.md R59 and R64 -/

theorem test_decode_op_encode : decode (.op ⟨0b0#1, .value 300#64⟩) = .ok (.encode 300#64) := rfl

theorem test_decode_op_decode : decode (.op ⟨0b1#1, .buffer [0xAC#8, 0x02#8] 2⟩) = .ok (.decode [0xAC#8, 0x02#8] 2) := rfl

theorem test_decode_vb_last : decode (.vb 0b01111110#8) = .ok (.groupLast 0b1111110#7) := rfl

theorem test_decode_vb_cont : decode (.vb 0b10000001#8) = .ok (.groupCont 0b0000001#7) := rfl

/-- The rows of spec/opcode_table.json at the host's interface, in whole bytes. -/
theorem test_table_rows :
    decodeTableWord 8 0x0 = some (.encode 0#64) ∧ decodeTableWord 8 0x1 = some (.decode [] 0) ∧
      decodeTableWord 8 0x7F = some (.groupLast 0x7F#7) ∧ decodeTableWord 8 0x80 = some (.groupCont 0#7) := by
  decide

/-- Each row placed after reset is what the first step runs. -/
theorem test_table_rows_step :
    ((nextState (step (State.reset.withFetchWord 8 0x0))).map fun s => s.enc.resp) = some (some ⟨[0x00#8], 1#4⟩) ∧
    ((nextState (step (State.reset.withFetchWord 8 0x1))).map fun s => s.dec.resp) =
      some (some (.failed .truncated)) ∧
    ((nextState (step (State.reset.withFetchWord 8 0x7F))).map fun s => s.dec.resp) =
      some (some (.ok 127#64 1#4 [])) ∧
    ((nextState (step (State.reset.withFetchWord 8 0x80))).map fun s => (s.dec.sh, s.dec.i, s.dec.ph)) =
      some (7#7, 1#4, .run) := by
  decide

/-! ### ENCODE -/

/-- 95_test_vectors.md section 2.2, `ENCODE 300`, with what P1 says is left in the registers. -/
theorem test_encode_300 :
    ((nextState (exec (.encode 300#64) State.reset)).map fun s => (s.enc.resp, s.enc.v, s.enc.n, s.enc.ph)) =
      some (some ⟨[0xAC#8, 0x02#8], 2#4⟩, 2#64, 2#4, .idle) := by
  decide

/-- 95_test_vectors.md section 2.2, `ENCODE 2^63`: the shift is logical. -/
theorem test_encode_top_bit :
    ((nextState (exec (.encode 0x8000000000000000#64) State.reset)).map fun s => s.enc.resp) =
      some (some ⟨List.replicate 9 0x80#8 ++ [0x01#8], 10#4⟩) := by
  decide

/-! ### DECODE -/

/-- 95_test_vectors.md section 1.2, the source's scenario with a residual. -/
theorem test_decode_residual :
    ((nextState (exec (.decode [0x80#8, 0x01#8, 0xFF#8] 3) State.reset)).map fun s => s.dec.resp) =
      some (some (.ok 128#64 2#4 [0xFF#8])) := by
  decide

/-- 95_test_vectors.md P3 line 1: `FF*11` is overlong, and what it leaves in the registers. -/
theorem test_decode_overlong :
    ((nextState (exec (.decode (List.replicate 11 0xFF#8) 11) State.reset)).map fun s =>
        (s.dec.resp, s.dec.acc, s.dec.sh, s.dec.i, s.dec.ph)) =
      some (some (.failed .overlong), 0xFFFFFFFFFFFFFFFF#64, 70#7, 10#4, .idle) := by
  decide

/-! ### GROUP_LAST -/

/-- The example of 41_decoder.md R95. -/
theorem test_groupLast_example :
    ((nextState (exec (.groupLast 1#7) (decRunning 0#64 7#7 1#4 [0x80#8, 0x01#8, 0xFF#8] []))).map fun s =>
        (s.dec.resp, s.dec.i, s.dec.sh)) =
      some (some (.ok 128#64 2#4 [0xFF#8]), 2#4, 7#7) := by
  decide

/-- 41_decoder.md R96: the tenth byte `7E` adds nothing. -/
theorem test_groupLast_tenth_byte :
    ((nextState (exec (.groupLast 0x7E#7)
        (decRunning 0#64 63#7 9#4 (List.replicate 9 0x80#8 ++ [0x7E#8]) []))).map fun s => s.dec.resp) =
      some (some (.ok 0#64 10#4 [])) := by
  decide

/-! ### GROUP_CONT -/

/-- 95_test_vectors.md section 3.4, step 1 of `DECODE AC 02 80 01 7F`. -/
theorem test_groupCont_goes_on :
    ((nextState (exec (.groupCont 0x2C#7)
        (decRunning 0#64 0#7 0#4 [0xAC#8, 0x02#8, 0x80#8, 0x01#8, 0x7F#8] []))).map fun s =>
          (s.dec.acc, s.dec.sh, s.dec.i, s.dec.ph)) =
      some (0x2C#64, 7#7, 1#4, .run) := by
  decide

/-- The example of 41_decoder.md R97: the tenth continuation byte. -/
theorem test_groupCont_overlong :
    ((nextState (exec (.groupCont 0x7F#7) (decRunning 0#64 63#7 9#4 (List.replicate 10 0xFF#8) []))).map fun s =>
        (s.dec.acc, s.dec.sh, s.dec.i, s.dec.resp)) =
      some (0x8000000000000000#64, 70#7, 10#4, some (.failed .overlong)) := by
  decide

/-! ### State -/

/-- Reset's buffers are in canonical form. -/
theorem test_reset_memory_wf :
    Memory.wf (Memory.cells State.reset.enc.obuf) = true ∧ Memory.wf (Memory.cells State.reset.dec.ibuf) = true :=
  ⟨Memory.cells_wf _, Memory.cells_wf _⟩

/-! ### Witnesses: a state and operands that meet a statement's hypotheses together -/

theorem witness_ResetDropsOperationsInProgress :
    (decRunning 0x7F#64 7#7 1#4 [0xFF#8, 0x01#8] [.reset]).moves = .reset :: [] := rfl

theorem witness_IdleBlockDoesNothingWithoutRequest :
    State.reset.moves = [] ∧ State.reset.enc.ph = .idle ∧ State.reset.dec.ph = .idle ∧ State.reset.enc.req = none ∧
      State.reset.dec.req = none := by
  decide

theorem witness_RequestToRunningUnitIsOnlyHeld :
    (encRunning 300#64 0#4 [] [.present ⟨0#1, .value 5#64⟩]).enc.ph = .run ∧
    (encRunning 300#64 0#4 [] [.present ⟨0#1, .value 5#64⟩]).moves = .present ⟨0#1, .value 5#64⟩ :: [] ∧
    (decRunning 0#64 0#7 0#4 [0x80#8] [.present ⟨1#1, .buffer [] 0⟩]).dec.ph = .run ∧
    (decRunning 0#64 0#7 0#4 [0x80#8] [.present ⟨1#1, .buffer [] 0⟩]).moves = .present ⟨1#1, .buffer [] 0⟩ :: [] := by
  decide

theorem witness_RequestToIdleUnitIsOnlyPresented :
    (withMoves [.present ⟨0#1, .value 5#64⟩]).enc.ph = .idle ∧
    (withMoves [.present ⟨0#1, .value 5#64⟩]).moves = .present ⟨0#1, .value 5#64⟩ :: [] ∧
    (withMoves [.present ⟨1#1, .buffer [] 0⟩]).dec.ph = .idle ∧
    (withMoves [.present ⟨1#1, .buffer [] 0⟩]).moves = .present ⟨1#1, .buffer [] 0⟩ :: [] := by
  decide

theorem witness_TakingResponseRemovesOnlyIt :
    (withMoves [.take .enc]).moves = .take .enc :: [] ∧ (withMoves [.take .dec]).moves = .take .dec :: [] := by
  decide

theorem witness_DecodeInvertsEncode : (Instr.decode [0xAC#8, 0x02#8] 2).wf = true := by decide

theorem witness_EncodeInvertsDecode : decode (.vb 0xFF#8) = .ok (.groupCont 0x7F#7) := rfl

theorem witness_EveryByteHasExactlyOneClass :
    (0x7F#8).toNat < 0x80 ∧ (0x00#8).toNat < 0x80 ∧ 0x80 ≤ (0x80#8).toNat ∧ 0x80 ≤ (0xFF#8).toNat := by decide

theorem witness_ImpossibleRequestsAreRejected : 1 ≠ ([] : List Byte).length := by decide

theorem witness_StepRunsCalledOperation :
    (withMoves [.call ⟨0#1, .value 300#64⟩]).moves = .call ⟨0#1, .value 300#64⟩ :: [] ∧
      decode (.op ⟨0#1, .value 300#64⟩) = .ok (.encode 300#64) := ⟨rfl, rfl⟩

theorem witness_StepRunsFetchedByte :
    (decRunning 0#64 0#7 0#4 [0x80#8] [.turn .dec]).dec.ph = .run ∧
    (decRunning 0#64 0#7 0#4 [0x80#8] [.turn .dec]).dec.i.toNat < (decRunning 0#64 0#7 0#4 [0x80#8] []).dec.n ∧
    (decRunning 0#64 0#7 0#4 [0x80#8] [.turn .dec]).dec.ibuf[0]? = some 0x80#8 ∧
    (decRunning 0#64 0#7 0#4 [0x80#8] [.turn .dec]).moves = .turn .dec :: [] ∧
    (decRunning 0#64 0#7 0#4 [0x80#8] []).moves = [] := by
  decide

theorem witness_PlacedWordRunsNext : decodeTableWord 8 0x80 = some (.groupCont 0#7) := by decide

theorem witness_WriteChangesOnlyItsOffset :
    memWrite [0x80#8] 0 0x01#8 = some [0x01#8] ∧ memWrite [0x80#8] 1 0x01#8 = some [0x80#8, 0x01#8] := by decide

theorem witness_EncodeRespondsWithAlgorithmsBytes : State.reset.enc.ph = .idle := rfl

theorem witness_EncoderHasClosedForm :
    (Codec.enc 128#64).getLast? = some 0x01#8 ∧ 1 < (Codec.enc 128#64).length := by decide

theorem witness_EncoderStartLoadsRequest :
    ({ withMoves [.turn .enc] with enc := encPresent 300#64 State.reset.enc } : State).moves = .turn .enc :: [] ∧
    (encPresent 300#64 State.reset.enc).ph = .idle ∧ (encPresent 300#64 State.reset.enc).req = some 300#64 := by
  decide

theorem witness_EncoderContinuationStepEmitsAndShifts :
    (encRunning 0x80#64 0#4 [] [.turn .enc]).moves = .turn .enc :: [] ∧
    (encRunning 0x80#64 0#4 [] [.turn .enc]).enc.ph = .run ∧
    0x80 ≤ (encRunning 0x80#64 0#4 [] [.turn .enc]).enc.v.toNat ∧
    (encRunning 0x80#64 0#4 [] [.turn .enc]).enc.obuf.length = (encRunning 0x80#64 0#4 [] []).enc.n.toNat ∧
    (encRunning 0x80#64 0#4 [] [.turn .enc]).enc.n.toNat ≤ 9 := by
  decide

theorem witness_EncoderLastStepResponds :
    (encRunning 0x7F#64 1#4 [0xAC#8] [.turn .enc]).moves = .turn .enc :: [] ∧
    (encRunning 0x7F#64 1#4 [0xAC#8] [.turn .enc]).enc.ph = .run ∧
    (encRunning 0x7F#64 1#4 [0xAC#8] [.turn .enc]).enc.v.toNat < 0x80 ∧
    (encRunning 0x7F#64 1#4 [0xAC#8] [.turn .enc]).enc.obuf.length = (encRunning 0#64 1#4 [] []).enc.n.toNat ∧
    (encRunning 0x7F#64 1#4 [0xAC#8] [.turn .enc]).enc.n.toNat ≤ 9 := by
  decide

theorem witness_EncoderTurnsAgreeWithAtomicOperation :
    (encPresent 300#64 State.reset.enc).ph = .idle ∧ (encPresent 300#64 State.reset.enc).req = some 300#64 ∧
    (withMoves (List.replicate 3 (.turn .enc))).moves = List.replicate (Codec.encSteps 300#64) (.turn .enc) := by
  decide

theorem witness_DecodeRespondsWithAlgorithmsResult : State.reset.dec.ph = .idle := rfl

theorem witness_DecoderIgnoresBytesPastTheTenth :
    (List.replicate 9 0xFF#8 ++ [0x01#8]).length = 10 ∧
    Codec.dec ((List.replicate 9 0xFF#8 ++ [0x01#8]) ++ [0x55#8]) = .ok 0xFFFFFFFFFFFFFFFF#64 10#4 [0x55#8] ∧
    (List.replicate 10 0xFF#8).length = 10 ∧
    Codec.dec (List.replicate 10 0xFF#8 ++ [0x55#8]) = .failed .overlong := by
  decide

theorem witness_DecoderStartLoadsRequest :
    ({ withMoves [.turn .dec] with dec := decPresent ⟨[0x80#8], 1⟩ State.reset.dec } : State).moves = .turn .dec :: [] ∧
    (decPresent ⟨[0x80#8], 1⟩ State.reset.dec).ph = .idle ∧
    (decPresent ⟨[0x80#8], 1⟩ State.reset.dec).req = some ⟨[0x80#8], [0x80#8].length⟩ := by
  decide

theorem witness_EndOfInputRaisesTruncated :
    (decRunning 0#64 7#7 1#4 [0x80#8] [.turn .dec]).moves = .turn .dec :: [] ∧
    (decRunning 0#64 7#7 1#4 [0x80#8] [.turn .dec]).dec.ph = .run ∧
    (decRunning 0#64 7#7 1#4 [0x80#8] [.turn .dec]).dec.n ≤ (decRunning 0#64 7#7 1#4 [0x80#8] []).dec.i.toNat := by
  decide

theorem witness_GroupLastAccumulatesAndResponds :
    (decRunning 0#64 63#7 9#4 (List.replicate 10 0x80#8) []).dec.ph = .run ∧
    (decRunning 0#64 63#7 9#4 (List.replicate 10 0x80#8) []).dec.i.toNat <
      (decRunning 0#64 63#7 9#4 (List.replicate 10 0x80#8) []).dec.n ∧
    (decRunning 0#64 63#7 9#4 (List.replicate 10 0x80#8) []).dec.i.toNat ≤ 9 ∧
    (decRunning 0#64 63#7 9#4 (List.replicate 10 0x80#8) []).dec.sh.toNat ≤ 63 := by
  decide

/-- Clause 1 at the boundaries `D.SH = 57` of its condition and `D.SH = 56` of the reachable values. -/
theorem witness_GroupContContinuesOrRaisesOverlong_goes_on :
    (decRunning 0#64 56#7 8#4 (List.replicate 9 0x80#8) []).dec.ph = .run ∧
    (decRunning 0#64 56#7 8#4 (List.replicate 9 0x80#8) []).dec.i.toNat <
      (decRunning 0#64 56#7 8#4 (List.replicate 9 0x80#8) []).dec.n ∧
    (decRunning 0#64 56#7 8#4 (List.replicate 9 0x80#8) []).dec.i.toNat ≤ 9 ∧
    (decRunning 0#64 56#7 8#4 (List.replicate 9 0x80#8) []).dec.sh.toNat + 7 ≤ 64 ∧
    (decRunning 0#64 57#7 8#4 (List.replicate 9 0x80#8) []).dec.sh.toNat + 7 ≤ 64 := by
  decide

/-- Clause 2 at its boundaries `D.SH = 58` and `D.SH = 63`. -/
theorem witness_GroupContContinuesOrRaisesOverlong_overlong :
    (decRunning 0#64 63#7 9#4 (List.replicate 10 0x80#8) []).dec.ph = .run ∧
    (decRunning 0#64 63#7 9#4 (List.replicate 10 0x80#8) []).dec.i.toNat <
      (decRunning 0#64 63#7 9#4 (List.replicate 10 0x80#8) []).dec.n ∧
    64 < (decRunning 0#64 63#7 9#4 (List.replicate 10 0x80#8) []).dec.sh.toNat + 7 ∧
    (decRunning 0#64 63#7 9#4 (List.replicate 10 0x80#8) []).dec.sh.toNat ≤ 63 ∧
    64 < (decRunning 0#64 58#7 9#4 (List.replicate 10 0x80#8) []).dec.sh.toNat + 7 := by
  decide

theorem witness_ByteStepRefusedWhenNotEnabled :
    State.reset.dec.ph = .idle ∧
    (decRunning 0#64 0#7 0#4 [] []).dec.n ≤ (decRunning 0#64 0#7 0#4 [] []).dec.i.toNat := by
  decide

theorem witness_TenthGroupKeepsOnlyBitZero :
    (List.replicate 9 0xFF#8).length = 9 ∧ (∀ x ∈ List.replicate 9 0xFF#8, contFlag x = true) ∧
      contFlag 0x7F#8 = false := by
  decide

theorem witness_RunningDecodeKeepsItsInput :
    ∃ t, (decRunning 0#64 0#7 0#4 [0x80#8] [.turn .dec]).moves = .turn .dec :: [] ∧
      (decRunning 0#64 0#7 0#4 [0x80#8] [.turn .dec]).dec.ph = .run ∧
      step (decRunning 0#64 0#7 0#4 [0x80#8] [.turn .dec]) = .next t ∧ t.dec.ph = .run :=
  ⟨decRunning 0#64 7#7 1#4 [0x80#8] [], rfl, rfl, rfl, rfl⟩

theorem witness_DecoderTurnsAgreeWithAtomicOperation :
    (decPresent ⟨[0x80#8], 1⟩ State.reset.dec).ph = .idle ∧
    (decPresent ⟨[0x80#8], 1⟩ State.reset.dec).req = some ⟨[0x80#8], [0x80#8].length⟩ ∧
    (withMoves (List.replicate 3 (.turn .dec))).moves = List.replicate (Codec.decSteps [0x80#8]) (.turn .dec) := by
  decide

theorem witness_RoundTripThroughBothUnits : State.reset.enc.ph = .idle ∧ State.reset.dec.ph = .idle := by decide

theorem witness_ProperBeginningsAreTruncated :
    2 < (Codec.enc 16384#64).length ∧ 9 < (Codec.enc 0xFFFFFFFFFFFFFFFF#64).length := by decide

theorem witness_TenContinuationBytesAreOverlong :
    10 ≤ (List.replicate 10 0x80#8).length ∧ ∀ b ∈ (List.replicate 10 0x80#8).take 10, contFlag b = true := by
  decide

theorem witness_ReencodingIsNoLonger :
    Codec.dec (List.replicate 8 0x80#8 ++ [0x01#8]) = .ok 72057594037927936#64 9#4 [] ∧ (9#4).toNat ≤ 9 := by
  decide

theorem witness_EqualLengthMeansCanonical : Codec.dec [0xAC#8, 0x02#8] = .ok 300#64 2#4 [] := by decide

theorem witness_EncodingIsInjectiveDecodingIsNot : Codec.enc 300#64 = Codec.enc 300#64 := rfl

theorem witness_SuffixChangesOnlyTruncatedVerdicts :
    Codec.dec [0x7F#8] = .ok 127#64 1#4 [] ∧ Codec.dec (List.replicate 10 0x80#8) = .failed .overlong ∧
      Codec.dec [0x80#8] = .failed .truncated := by
  decide

theorem witness_LargerValuesHaveNoShorterEncodings : (127#64).toNat ≤ (128#64).toNat := by decide

theorem witness_LengthIsToldByPowersOf128 :
    (Codec.enc 0#64).length = 1 ∧ (Codec.enc 0xFFFFFFFFFFFFFFFF#64).length = 10 := by decide

theorem witness_PaddedEncodingsAreAccepted : (Codec.padded 1#64 8).length ≤ 10 := by decide

/-- Reset meets the hypotheses of the invariant's statements. -/
theorem reset_units_inv : State.reset.enc.Inv ∧ State.reset.dec.Inv := by
  refine ⟨?_, ?_⟩ <;> constructor <;> simp [State.reset, EncUnit.afterReset, DecUnit.afterReset]

theorem witness_EveryStepKeepsInvariant : State.reset.Inv ∧ step State.reset = .next State.reset :=
  ⟨⟨reset_units_inv.1, reset_units_inv.2⟩, rfl⟩

/-- A host that has an operation called, a request presented and a turn to come meets `hostOk`. -/
theorem witness_NoStepStopsUnderInvariant :
    (withMoves [.call ⟨0#1, .value 300#64⟩, .present ⟨1#1, .buffer [0x80#8] 1⟩, .turn .dec]).Inv ∧
    (withMoves [.call ⟨0#1, .value 300#64⟩, .present ⟨1#1, .buffer [0x80#8] 1⟩, .turn .dec]).hostOk :=
  ⟨⟨reset_units_inv.1, reset_units_inv.2⟩, by unfold State.hostOk; decide⟩

theorem witness_RunningUnitRespondsWithinBound_enc :
    (encRunning 300#64 0#4 [] (List.replicate 10 (.turn .enc))).Inv ∧
    (encRunning 300#64 0#4 [] (List.replicate 10 (.turn .enc))).enc.ph = .run ∧
    (encRunning 300#64 0#4 [] (List.replicate 10 (.turn .enc))).enc.req = none := by
  refine ⟨⟨?_, reset_units_inv.2⟩, rfl, rfl⟩
  constructor <;> simp [encRunning]

theorem witness_RunningUnitRespondsWithinBound_dec :
    (decRunning 0#64 0#7 0#4 [0x80#8] (List.replicate 11 (.turn .dec))).Inv ∧
    (decRunning 0#64 0#7 0#4 [0x80#8] (List.replicate 11 (.turn .dec))).dec.ph = .run ∧
    (decRunning 0#64 0#7 0#4 [0x80#8] (List.replicate 11 (.turn .dec))).dec.req = none := by
  refine ⟨⟨reset_units_inv.1, ?_⟩, rfl, rfl⟩
  constructor <;> simp [decRunning, Codec.groupSum]

theorem witness_UnitsDoNotTouchEachOther :
    ∃ t u v w,
      (encRunning 300#64 0#4 [] [.turn .enc]).moves = .turn .enc :: [] ∧
      step (encRunning 300#64 0#4 [] [.turn .enc]) = .next t ∧
      (decRunning 0#64 0#7 0#4 [0x80#8] [.turn .dec]).moves = .turn .dec :: [] ∧
      step (decRunning 0#64 0#7 0#4 [0x80#8] [.turn .dec]) = .next u ∧
      exec (.encode 300#64) State.reset = .next v ∧
      (∀ x : Word, Instr.decode [0x80#8] 1 ≠ .encode x) ∧ exec (.decode [0x80#8] 1) State.reset = .next w :=
  ⟨_, _, _, _, rfl, rfl, rfl, rfl, rfl, fun _ h => Instr.noConfusion h, rfl⟩

theorem witness_TurnsOfTheTwoUnitsCommute : State.reset.Inv := ⟨reset_units_inv.1, reset_units_inv.2⟩

theorem witness_OperationsDependOnRequestAlone :
    (withMoves []).enc.ph = .idle ∧
      ({ State.reset with dec := decRaise .overlong (decStart ⟨[], 0⟩) } : State).enc.ph = .idle ∧
      ({ State.reset with dec := decRaise .overlong (decStart ⟨[], 0⟩) } : State).dec.ph = .idle := by
  decide

end Sys2Proof.Tests
end

section
/-! PROOFS. Progress and preservation (O48): under the invariant a step answers a next state that meets it again. First the
groups' sum, then each unit, then the machine's moves. -/

namespace Sys2Proof.Machine

/-! ### The groups' sum (30_encoding.md R52) -/

namespace Codec

/-- Each group weighs 128 times the one before (30_encoding.md R52). -/
theorem groupWeight_succ (k : Nat) : 2 ^ (7 * (k + 1)) = 128 * 2 ^ (7 * k) := by
  rw [Nat.mul_succ, Nat.pow_add, Nat.mul_comm]

/-- Bytes after the first ones weigh above all bits of those. -/
theorem groupSum_append (a b : List Byte) : groupSum (a ++ b) = groupSum a + 2 ^ (7 * a.length) * groupSum b := by
  induction a with
  | nil => simp [groupSum]
  | cons x xs ih =>
    simp only [List.cons_append, groupSum, ih, List.length_cons, groupWeight_succ]
    ring

/-- `k` groups fill at most `7k` bits. -/
theorem groupSum_lt (a : List Byte) : groupSum a < 2 ^ (7 * a.length) := by
  induction a with
  | nil => simp [groupSum]
  | cons x xs ih =>
    have hx := (groupOf x).isLt
    simp only [groupSum, List.length_cons, groupWeight_succ]
    omega

/-- Reading one more byte adds its group at bit `7i`. -/
theorem groupSum_take_succ {buf : List Byte} {i : Nat} {b : Byte} (hb : buf[i]? = some b) :
    groupSum (buf.take (i + 1)) = groupSum (buf.take i) + (groupOf b).toNat * 2 ^ (7 * i) := by
  obtain ⟨hi, -⟩ := List.getElem?_eq_some_iff.1 hb
  rw [List.take_add_one, hb, Option.toList_some, groupSum_append, List.length_take_of_le hi.le]
  simp [groupSum, Nat.mul_comm]

end Codec

/-! ### ENC -/

/-- A unit just started meets the invariant (40_encoder.md R72). -/
theorem encStart_inv (v : Word) : (encStart v).Inv where
  count := by simp
  idle := by simp
  runCount := by simp
  runValue _ := by simpa using v.isLt
  runBytes := by simp
  resp := by simp

/-- A unit that responds with a varint meets the invariant (40_encoder.md R74). -/
theorem encRespond_inv {e : EncUnit} (hn : e.n.toNat ≤ 10) (hr : EncResponse.wf ⟨e.obuf, e.n⟩) : (encRespond e).Inv where
  count := hn
  idle := by simp
  runCount := by simp
  runValue := by simp
  runBytes := by simp
  resp r h := by
    cases h
    exact hr

/-- Holding a request changes nothing that the invariant speaks of. -/
theorem EncUnit.Inv.encPresent {e : EncUnit} (h : e.Inv) (v : Word) : (encPresent v e).Inv :=
  ⟨h.count, h.idle, h.runCount, h.runValue, h.runBytes, h.resp⟩

/-- A taken response leaves none to speak of. -/
theorem EncUnit.Inv.encTake {e : EncUnit} (h : e.Inv) : (encTake e).Inv :=
  ⟨h.count, h.idle, h.runCount, h.runValue, h.runBytes, by simp⟩

/-- Reset of the unit, whatever request the host presents (70_reset_and_hazards.md R170). -/
theorem EncUnit.afterReset_inv (req : Option Word) : (EncUnit.afterReset req).Inv := by
  constructor <;> simp [EncUnit.afterReset]

/-- Continuation bytes and then a final byte are a varint (30_encoding.md R51). -/
theorem EncResponse.wf_concat_lastByte {out : List Byte} {n : BitVec 4} (v : Word) (hl : out.length = n.toNat)
    (hn : n.toNat ≤ 9) (hb : ∀ b ∈ out, contFlag b = true) : EncResponse.wf ⟨out ++ [lastByte v], n + 1#4⟩ := by
  have hcont : out.map contFlag = List.replicate out.length true := by
    rw [List.eq_replicate_iff]
    simpa using hb
  have hflags : (out ++ [lastByte v]).map contFlag = List.replicate out.length true ++ [false] := by
    simp [hcont, lastByte_eq]
  have hlen : (out ++ [lastByte v]).length = out.length + 1 := by simp
  unfold EncResponse.wf
  rw [hlen, hflags, count_toNat hn, hl, Nat.add_sub_cancel]
  exact ⟨by omega, by omega, rfl, rfl⟩

/-- A value that needs a continuation byte leaves room for it: at most 8 bytes are out (40_encoder.md R75). -/
theorem EncUnit.Inv.count_le_of_ge {e : EncUnit} (h : e.Inv) (hp : e.ph = .run) (hv : 0x80 ≤ e.v.toNat) :
    e.n.toNat ≤ 8 := by
  obtain ⟨-, hn⟩ := h.runCount hp
  have hlt := h.runValue hp
  by_contra hgt
  have h9 : e.n.toNat = 9 := by omega
  rw [h9] at hlt
  omega

/-- A byte step of a unit in RUN answers, and keeps the invariant (40_encoder.md R73 to R75). -/
theorem EncUnit.Inv.encStep_answers {e : EncUnit} (h : e.Inv) (hp : e.ph = .run) : ∃ e', encStep e = .ok e' ∧ e'.Inv := by
  obtain ⟨hl, hn⟩ := h.runCount hp
  have hcount := count_toNat hn
  by_cases hv : 0x80 ≤ e.v.toNat
  · have h8 := h.count_le_of_ge hp hv
    refine ⟨_, encStep_of_ge hv hl hn, ?_⟩
    have hvalue : e.v.toNat / 128 < 2 ^ (64 - 7 * (e.n.toNat + 1)) := by
      have hpow : 2 ^ (64 - 7 * e.n.toNat) = 128 * 2 ^ (64 - 7 * (e.n.toNat + 1)) := by
        rw [show 64 - 7 * e.n.toNat = 7 + (64 - 7 * (e.n.toNat + 1)) by omega, Nat.pow_add]
      exact Nat.div_lt_of_lt_mul (hpow ▸ h.runValue hp)
    exact {
      count := by simp only [hcount]; omega
      idle := by simp [hp]
      runCount := fun _ => by simp only [List.length_append, List.length_singleton, hcount]; omega
      runValue := fun _ => by simpa only [shr7_toNat, hcount] using hvalue
      runBytes := fun _ b hb => by
        rcases List.mem_append.1 hb with hb | hb
        · exact h.runBytes hp b hb
        · rw [List.mem_singleton.1 hb, contByte_eq, contFlag_contByteOf]
      resp := h.resp }
  · refine ⟨_, encStep_of_lt (by omega) hl hn, encRespond_inv ?_ ?_⟩
    · simp only [hcount]; omega
    · exact EncResponse.wf_concat_lastByte _ hl hn (h.runBytes hp)

/-- Byte steps to the end of an operation answer, and keep the invariant. -/
theorem EncUnit.Inv.encRun_answers (k : Nat) {e : EncUnit} (h : e.Inv) : ∃ e', encRun k e = .ok e' ∧ e'.Inv := by
  induction k generalizing e with
  | zero => exact ⟨e, rfl, h⟩
  | succ k ih =>
    unfold encRun
    cases hp : e.ph with
    | idle => exact ⟨e, rfl, h⟩
    | run =>
      obtain ⟨e', he, h'⟩ := h.encStep_answers hp
      simpa [he] using ih h'

/-- A turn of the unit answers, and keeps the invariant (40_encoder.md R72 to R74). -/
theorem EncUnit.Inv.encTurn_answers {e : EncUnit} (h : e.Inv) : ∃ e', encTurn e = .ok e' ∧ e'.Inv := by
  unfold encTurn
  cases hp : e.ph with
  | run => exact h.encStep_answers hp
  | idle =>
    cases e.req with
    | some v => exact ⟨_, rfl, encStart_inv v⟩
    | none => exact ⟨e, rfl, h⟩

/-! ### DEC -/

/-- A unit just started on a request meets the invariant (41_decoder.md R92). -/
theorem decStart_inv {r : DecRequest} (hr : r.n = r.ibuf.length) : (decStart r).Inv := by
  constructor <;> simp [hr, Codec.groupSum]

/-- A unit that responds meets the invariant (41_decoder.md R95, 60_exceptions.md R147). -/
theorem decRespond_inv {d : DecUnit} {w : DecResponse} (hw : w.wf) (hcount : d.i.toNat ≤ 10)
    (hshift : d.sh.toNat % 7 = 0 ∧ d.sh.toNat ≤ 70) (hreq : ∀ r, d.req = some r → r.n = r.ibuf.length) :
    (decRespond w d).Inv where
  count := hcount
  shift := hshift
  idle := by simp
  runLength := by simp
  runShift := by simp
  runBytes := by simp
  runAcc := by simp
  req := hreq
  resp r h := by
    cases h
    exact hw

/-- Holding a request whose `N` is its length keeps the invariant. -/
theorem DecUnit.Inv.decPresent {d : DecUnit} (h : d.Inv) {r : DecRequest} (hr : r.n = r.ibuf.length) :
    (decPresent r d).Inv :=
  ⟨h.count, h.shift, h.idle, h.runLength, h.runShift, h.runBytes, h.runAcc, by simpa using hr, h.resp⟩

/-- A taken response leaves none to speak of. -/
theorem DecUnit.Inv.decTake {d : DecUnit} (h : d.Inv) : (decTake d).Inv :=
  ⟨h.count, h.shift, h.idle, h.runLength, h.runShift, h.runBytes, h.runAcc, h.req, by simp⟩

/-- Reset of the unit, whatever request the host presents (70_reset_and_hazards.md R170). -/
theorem DecUnit.afterReset_inv {req : Option DecRequest} (hreq : ∀ r, req = some r → r.n = r.ibuf.length) :
    (DecUnit.afterReset req).Inv := by
  constructor
  case req => exact hreq
  all_goals simp [DecUnit.afterReset]

/-- The accumulator after one more group that stays inside 64 bits: the sum of the groups read (41_decoder.md R94). -/
theorem accumulated_toNat {acc : Word} {buf : List Byte} {i : Nat} {b : Byte} (hi : i ≤ 8) (hb : buf[i]? = some b)
    (hacc : acc.toNat = Codec.groupSum (buf.take i)) :
    (acc ||| (groupOf b).setWidth 64 <<< (7 * i)).toNat = Codec.groupSum (buf.take (i + 1)) := by
  obtain ⟨hlt, -⟩ := List.getElem?_eq_some_iff.1 hb
  have hbelow := Codec.groupSum_lt (buf.take i)
  have hbound := Codec.groupSum_lt (buf.take (i + 1))
  rw [List.length_take_of_le hlt.le] at hbelow
  rw [List.length_take_of_le hlt] at hbound
  have hsum : Codec.groupSum (buf.take (i + 1)) < 2 ^ 64 :=
    hbound.trans_le (Nat.pow_le_pow_right (by decide) (by omega))
  have hgroup : ((groupOf b).setWidth 64).toNat = (groupOf b).toNat :=
    BitVec.toNat_setWidth_of_le (by decide)
  rw [or_shift_toNat _ _ _ (by omega) (hacc ▸ hbelow), hacc, hgroup, ← Codec.groupSum_take_succ hb,
    Nat.mod_eq_of_lt hsum]

/-- The step of a terminating byte answers, and keeps the invariant (41_decoder.md R95). -/
theorem DecUnit.Inv.groupLastStep_answers {d : DecUnit} (h : d.Inv) (hp : d.ph = .run) (g : Group) :
    ∃ d', groupLastStep g d = .ok d' ∧ d'.Inv := by
  obtain ⟨hsh, h63, -⟩ := h.runShift hp
  have hi : d.i.toNat ≤ 9 := by omega
  have hcount := count_toNat hi
  refine ⟨_, groupLastStep_eq_ok.2 ⟨_, accumulate_of_le g h63 hi, rfl⟩, decRespond_inv ?_ ?_ h.shift h.req⟩
  · simp only [DecResponse.wf, hcount]; omega
  · simp only [hcount]; omega

/-- The step of a continuation byte answers, and keeps the invariant: it goes on while the next group starts inside the
register, and raises Overlong otherwise (41_decoder.md R97). -/
theorem DecUnit.Inv.groupContStep_answers {d : DecUnit} (h : d.Inv) (hp : d.ph = .run) {b : Byte}
    (hb : d.ibuf[d.i.toNat]? = some b) (hflag : contFlag b = true) :
    ∃ d', groupContStep (groupOf b) d = .ok d' ∧ d'.Inv := by
  obtain ⟨hsh, h63, -⟩ := h.runShift hp
  obtain ⟨hlt, -⟩ := List.getElem?_eq_some_iff.1 hb
  have hi : d.i.toNat ≤ 9 := by omega
  have hcount := count_toNat hi
  have hshift := shift_toNat h63
  refine ⟨_, groupContStep_eq_ok.2 ⟨_, accumulate_of_le _ h63 hi, rfl⟩, ?_⟩
  by_cases hin : d.sh.toNat + 7 ≤ 64
  · rw [advanceShift_of_le (by simpa using hin)]
    exact {
      count := by simp only [hcount]; omega
      shift := by simp only [hshift]; omega
      idle := by simp [hp]
      runLength := h.runLength
      runShift := fun _ => by simp only [hshift, hcount, h.runLength hp]; omega
      runBytes := fun _ c hc => by
        simp only [hcount, List.take_add_one, hb, Option.toList_some, List.mem_append, List.mem_singleton] at hc
        rcases hc with hc | rfl
        · exact h.runBytes hp c hc
        · exact hflag
      runAcc := fun _ => by
        simp only [hcount, hsh]
        exact accumulated_toNat (by omega) hb (h.runAcc hp)
      req := h.req
      resp := h.resp }
  · rw [advanceShift_of_gt (by simpa only [not_le] using hin) (by simpa using h63)]
    refine decRespond_inv trivial ?_ ?_ h.req
    · simp only [hcount]; omega
    · simp only [hshift]; omega

/-- The enabled step of a unit in RUN answers, and keeps the invariant (41_decoder.md R93 to R98). -/
theorem DecUnit.Inv.decStep_answers {d : DecUnit} (h : d.Inv) (hp : d.ph = .run) : ∃ d', decStep d = .ok d' ∧ d'.Inv := by
  rcases decStep_cases d with ⟨-, hd⟩ | ⟨hn, hb, -⟩ | ⟨b, -, hb, hd⟩
  · exact ⟨_, hd, decRespond_inv trivial h.count h.shift h.req⟩
  · rw [h.runLength hp] at hn
    exact absurd (List.getElem?_eq_none_iff.1 hb) (by omega)
  · cases hflag : contFlag b with
    | true => simpa [hd, hflag] using h.groupContStep_answers hp hb hflag
    | false => simpa [hd, hflag] using h.groupLastStep_answers hp (groupOf b)

/-- Steps to the end of an operation answer, and keep the invariant. -/
theorem DecUnit.Inv.decRun_answers (k : Nat) {d : DecUnit} (h : d.Inv) : ∃ d', decRun k d = .ok d' ∧ d'.Inv := by
  induction k generalizing d with
  | zero => exact ⟨d, rfl, h⟩
  | succ k ih =>
    unfold decRun
    cases hp : d.ph with
    | idle => exact ⟨d, rfl, h⟩
    | run =>
      obtain ⟨d', hd, h'⟩ := h.decStep_answers hp
      simpa [hd] using ih h'

/-! ### The machine -/

/-- The answer is a next state that meets the invariant, with the moves `ms` to come. -/
def GoesOnSafely (ms : List Move) (r : Result) : Prop := ∃ t, r = .next t ∧ t.Inv ∧ t.moves = ms

/-- What a request that decodes names: an ENCODE, or a DECODE with its right length (30_encoding.md R64). -/
theorem decode_op_cases {r : OpWord} {i : Instr} (h : decode (.op r) = .ok i) :
    (∃ v, i = .encode v) ∨ ∃ ibuf, i = .decode ibuf ibuf.length := by
  obtain ⟨op, operand⟩ := r
  by_cases hop : op = 0#1
  · cases operand with
    | value v =>
      simp only [decode, decodeOp, hop, if_true] at h
      exact .inl ⟨v, (Except.ok.inj h).symm⟩
    | buffer ibuf n => simp [decode, decodeOp, hop] at h
  · cases operand with
    | value v => simp [decode, decodeOp, hop] at h
    | buffer ibuf n =>
      by_cases hn : n = ibuf.length
      · simp only [decode, decodeOp, hop, hn, if_false, if_true] at h
        exact .inr ⟨ibuf, (Except.ok.inj h).symm⟩
      · simp [decode, decodeOp, hop, hn] at h

/-- A request that a host can make decodes. -/
theorem exists_decode_of_isOk {r : OpWord} (h : (decode (.op r)).isOk = true) : ∃ i, decode (.op r) = .ok i := by
  cases hd : decode (.op r) with
  | ok i => exact ⟨i, rfl⟩
  | error e => rw [hd] at h; cases h

section Moves

variable {s : State} (hs : s.Inv)

include hs

/-- Another ENC unit that meets the invariant. -/
theorem goesOnSafely_setEnc {e : EncUnit} (he : e.Inv) : GoesOnSafely s.moves (.next (s.setEnc e)) :=
  ⟨_, rfl, ⟨he, hs.dec⟩, rfl⟩

/-- Another DEC unit that meets the invariant. -/
theorem goesOnSafely_setDec {d : DecUnit} (hd : d.Inv) : GoesOnSafely s.moves (.next (s.setDec d)) :=
  ⟨_, rfl, ⟨hs.enc, hd⟩, rfl⟩

/-- ENCODE goes on safely: held by a unit in RUN, and run to its end by an IDLE unit (40_encoder.md R70, R75). -/
theorem goesOnSafely_execEncode (v : Word) : GoesOnSafely s.moves (exec (.encode v) s) := by
  simp only [exec, execEncode]
  cases s.enc.ph with
  | run => exact goesOnSafely_setEnc hs (hs.enc.encPresent v)
  | idle =>
    obtain ⟨e, he, hinv⟩ := (encStart_inv v).encRun_answers Config.maxLen
    simpa [encOperation, he] using goesOnSafely_setEnc hs hinv

/-- DECODE goes on safely, failures included (41_decoder.md R90, R98). -/
theorem goesOnSafely_execDecode (ibuf : List Byte) : GoesOnSafely s.moves (exec (.decode ibuf ibuf.length) s) := by
  simp only [exec, execDecode]
  cases s.dec.ph with
  | run => simpa using goesOnSafely_setDec hs (hs.dec.decPresent (r := ⟨ibuf, ibuf.length⟩) rfl)
  | idle =>
    obtain ⟨d, hd, hinv⟩ := (decStart_inv (r := ⟨ibuf, ibuf.length⟩) rfl).decRun_answers (Config.maxLen + 1)
    simpa [decOperation, hd] using goesOnSafely_setDec hs hinv

/-- A turn of the ENC unit goes on safely (40_encoder.md R72 to R74). -/
theorem goesOnSafely_encTurn : GoesOnSafely s.moves (liftEnc s (encTurn s.enc)) := by
  obtain ⟨e, he, hinv⟩ := hs.enc.encTurn_answers
  simpa [he] using goesOnSafely_setEnc hs hinv

/-- A turn of the DEC unit goes on safely (41_decoder.md R92 to R98). -/
theorem goesOnSafely_decTurn : GoesOnSafely s.moves (runFetched (decUnitTurn s)) := by
  cases hp : s.dec.ph with
  | run =>
    obtain ⟨d, hd, hinv⟩ := hs.dec.decStep_answers hp
    simpa [runFetched_decUnitTurn_run hp, hd] using goesOnSafely_setDec hs hinv
  | idle =>
    unfold decUnitTurn
    rw [hp]
    cases hr : s.dec.req with
    | some r => exact goesOnSafely_setDec hs (decStart_inv (hs.dec.req r hr))
    | none => exact ⟨s, rfl, hs, rfl⟩

/-- Reset goes on safely from every state that meets the invariant (70_reset_and_hazards.md R170). -/
theorem goesOnSafely_reset : GoesOnSafely s.moves (.next (resetUnits s)) :=
  ⟨_, rfl, ⟨EncUnit.afterReset_inv _, DecUnit.afterReset_inv hs.dec.req⟩, rfl⟩

/-- A step with a move to come that a host can make goes on safely, and the move is done. -/
theorem step_goesOnSafely_of_move {m : Move} {ms : List Move} (h : s.moves = m :: ms) (hm : m.wf = true) :
    GoesOnSafely ms (step s) := by
  have hs' : (s.setMoves ms).Inv := ⟨hs.enc, hs.dec⟩
  cases m with
  | call r =>
    obtain ⟨i, hi⟩ := exists_decode_of_isOk hm
    rw [step_call h, hi]
    rcases decode_op_cases hi with ⟨v, rfl⟩ | ⟨ibuf, rfl⟩
    · exact goesOnSafely_execEncode hs' v
    · exact goesOnSafely_execDecode hs' ibuf
  | present r =>
    obtain ⟨i, hi⟩ := exists_decode_of_isOk hm
    rw [step_present h, hi]
    rcases decode_op_cases hi with ⟨v, rfl⟩ | ⟨ibuf, rfl⟩
    · exact goesOnSafely_setEnc hs' (hs.enc.encPresent v)
    · exact goesOnSafely_setDec hs' (hs.dec.decPresent rfl)
  | turn u =>
    cases u with
    | enc => exact step_turn_enc h ▸ goesOnSafely_encTurn hs'
    | dec => exact step_eq_fetchMove h ▸ goesOnSafely_decTurn hs'
  | take u =>
    cases u with
    | enc => exact step_take_enc h ▸ goesOnSafely_setEnc hs' hs.enc.encTake
    | dec => exact step_take_dec h ▸ goesOnSafely_setDec hs' hs.dec.decTake
  | reset => exact step_reset h ▸ goesOnSafely_reset hs'

/-- A step with no move left goes on safely (70_reset_and_hazards.md R171, R179). -/
theorem step_goesOnSafely_of_free (h : s.moves = []) : GoesOnSafely s.moves (step s) := by
  rw [step_free h]
  split
  · exact goesOnSafely_decTurn hs
  · split
    · exact goesOnSafely_encTurn hs
    · exact ⟨s, rfl, hs, rfl⟩

end Moves

/-- Settles O48, by progress and preservation of each unit: the invariant keeps every shift below 64, every buffer access in
its buffer and every count at most 10, and a host's request decodes. -/
theorem noStepStopsUnderInvariant : Obligations.NoStepStopsUnderInvariant := by
  intro s hs hhost
  cases hmoves : s.moves with
  | nil =>
    obtain ⟨t, ht, hinv, htm⟩ := step_goesOnSafely_of_free hs hmoves
    exact ⟨t, ht, hinv, by simpa [State.hostOk, htm] using hhost⟩
  | cons m ms =>
    have hall : ∀ x ∈ m :: ms, x.wf = true := hmoves ▸ hhost
    obtain ⟨t, ht, hinv, rfl⟩ := step_goesOnSafely_of_move hs hmoves (hall m List.mem_cons_self)
    exact ⟨t, ht, hinv, fun x hx => hall x (List.mem_cons_of_mem _ hx)⟩

end Sys2Proof.Machine
end

section
/-! PROOFS. Reset and the host's moves (O1, O5, O10, O54), what a turn or an operation changes (O32, O51, O53), and the
invariant over every step (O47). -/

namespace Sys2Proof.Machine

/-! ### Every step keeps the invariant -/

/-- A safe answer's next state meets the invariant. -/
theorem GoesOnSafely.inv_of_eq_next {ms : List Move} {r : Result} {t : State} (h : GoesOnSafely ms r) (ht : r = .next t) :
    t.Inv := by
  obtain ⟨u, hu, hinv, -⟩ := h
  cases hu.symm.trans ht
  exact hinv

/-- A move that the step answers is one that a host can make: a request that does not decode is refused (logs 7, 8). -/
theorem Move.wf_of_step_eq_next {s t : State} {m : Move} {ms : List Move} (h : s.moves = m :: ms)
    (ht : step s = .next t) : m.wf = true := by
  cases m with
  | call r | present r =>
    rw [step_eq_fetchMove h, fetchMove] at ht
    cases hd : decode (.op r) with
    | ok i => simp [Move.wf, hd, Except.isOk, Except.toBool]
    | error e => rw [hd] at ht; cases ht
  | turn u | take u | reset => rfl

/-- Settles O47: a step that answers goes on safely, its move, if any, being one that a host can make. -/
theorem everyStepKeepsInvariant : Obligations.EveryStepKeepsInvariant := by
  intro s t hs ht
  cases hmoves : s.moves with
  | nil => exact (step_goesOnSafely_of_free hs hmoves).inv_of_eq_next ht
  | cons m ms => exact (step_goesOnSafely_of_move hs hmoves (Move.wf_of_step_eq_next hmoves ht)).inv_of_eq_next ht

/-! ### What a byte step leaves of the input -/

/-- Going on to the next byte changes only the shift (41_decoder.md R97). -/
theorem advanceShift_of_run {u : DecUnit} (hs : u.sh.toNat ≤ 63) (hp : (advanceShift u).ph = .run) :
    advanceShift u = { u with sh := u.sh + 7#7 } := by
  by_cases h : u.sh.toNat + 7 ≤ 64
  · exact advanceShift_of_le h
  · rw [advanceShift_of_gt (by omega) hs] at hp
    cases hp

/-- All that a step after which the unit is still in RUN can do: it took a group and went on (41_decoder.md R97). -/
theorem decStep_eq_ok_of_run {u u' : DecUnit} (h : decStep u = .ok u') (hp : u'.ph = .run) :
    ∃ g : Group, u.i.toNat ≤ 9 ∧
      u' = { u with acc := u.acc ||| (g.setWidth 64 <<< u.sh.toNat), i := u.i + 1#4, sh := u.sh + 7#7 } := by
  rcases decStep_cases u with ⟨-, hd⟩ | ⟨-, -, hd⟩ | ⟨b, -, -, hd⟩ <;> rw [hd] at h
  · cases h; cases hp
  · cases h
  · cases hflag : contFlag b with
    | true =>
      rw [hflag, if_pos rfl] at h
      obtain ⟨w, hw, rfl⟩ := groupContStep_eq_ok.1 h
      obtain ⟨hs, hi, rfl⟩ := accumulate_eq_ok.1 hw
      exact ⟨groupOf b, hi, advanceShift_of_run hs hp⟩
    | false =>
      rw [hflag, if_neg Bool.false_ne_true] at h
      obtain ⟨w, -, rfl⟩ := groupLastStep_eq_ok.1 h
      cases hp

/-- Settles O32: the only step that leaves the unit in RUN is the one of a continuation byte. -/
theorem runningDecodeKeepsItsInput : Obligations.RunningDecodeKeepsItsInput := by
  intro s t ms hmoves hp ht hrun
  rw [step_turn_dec_run hmoves hp] at ht
  obtain ⟨d, hd, rfl⟩ := (liftDec_eq_next _).1 ht
  obtain ⟨g, hi, rfl⟩ := decStep_eq_ok_of_run hd hrun
  exact ⟨rfl, rfl, count_toNat hi⟩

/-! ### What a turn or an operation changes of the machine (10_state.md R10) -/

/-- A turn of the DEC unit changes only that unit (41_decoder.md R103). -/
theorem step_turn_dec_eq_setDec {s t : State} {ms : List Move} (h : s.moves = .turn .dec :: ms) (ht : step s = .next t) :
    ∃ d, t = (s.setMoves ms).setDec d := by
  cases hp : s.dec.ph with
  | run =>
    rw [step_turn_dec_run h hp] at ht
    obtain ⟨d, -, hd⟩ := (liftDec_eq_next _).1 ht
    exact ⟨d, hd⟩
  | idle =>
    rw [step_turn_dec_idle h hp] at ht
    cases hr : s.dec.req with
    | some r =>
      rw [hr] at ht
      exact ⟨decStart r, (Host.Outcome.next.inj ht).symm⟩
    | none =>
      rw [hr] at ht
      exact ⟨s.dec, (Host.Outcome.next.inj ht).symm⟩

/-- ENCODE changes only the ENC unit (40_encoder.md R78). -/
theorem exec_encode_eq_setEnc {v : Word} {s t : State} (ht : exec (.encode v) s = .next t) : ∃ e, t = s.setEnc e := by
  simp only [exec, execEncode] at ht
  cases hp : s.enc.ph with
  | run =>
    rw [hp] at ht
    exact ⟨encPresent v s.enc, (Host.Outcome.next.inj ht).symm⟩
  | idle =>
    rw [hp] at ht
    obtain ⟨e, -, he⟩ := (liftEnc_eq_next _).1 ht
    exact ⟨e, he⟩

/-- DECODE changes only the DEC unit (41_decoder.md R103). -/
theorem execDecode_eq_setDec {ibuf : List Byte} {n : Nat} {s t : State} (ht : execDecode ibuf n s = .next t) :
    ∃ d, t = s.setDec d := by
  unfold execDecode at ht
  split at ht
  · cases hp : s.dec.ph with
    | run =>
      rw [hp] at ht
      exact ⟨decPresent ⟨ibuf, n⟩ s.dec, (Host.Outcome.next.inj ht).symm⟩
    | idle =>
      rw [hp] at ht
      obtain ⟨d, -, hd⟩ := (liftDec_eq_next _).1 ht
      exact ⟨d, hd⟩
  · cases ht

/-- A byte step, where it is enabled, changes only the DEC unit (log 10). -/
theorem byteStep_eq_setDec {s t : State} {x : Except Fault DecUnit}
    (ht : (if byteStepEnabled s.dec then liftDec s x else .refused .byteStepNotEnabled) = .next t) :
    ∃ d, t = s.setDec d := by
  split at ht
  · obtain ⟨d, -, hd⟩ := (liftDec_eq_next _).1 ht
    exact ⟨d, hd⟩
  · cases ht

/-- Every instruction but ENCODE changes only the DEC unit (41_decoder.md R103). -/
theorem exec_eq_setDec {i : Instr} {s t : State} (hi : ∀ v : Word, i ≠ .encode v) (ht : exec i s = .next t) :
    ∃ d, t = s.setDec d := by
  cases i with
  | encode v => exact absurd rfl (hi v)
  | decode ibuf n => exact execDecode_eq_setDec ht
  | groupLast g => exact byteStep_eq_setDec ht
  | groupCont g => exact byteStep_eq_setDec ht

/-- Settles O51: each answer is the state with another unit of its own kind. -/
theorem unitsDoNotTouchEachOther : Obligations.UnitsDoNotTouchEachOther := by
  intro s t ms
  refine ⟨fun h ht => ?_, fun h ht => ?_, fun v ht => ?_, fun i hi ht => ?_⟩
  · rw [step_turn_enc h] at ht
    obtain ⟨e, -, rfl⟩ := (liftEnc_eq_next _).1 ht
    exact ⟨rfl, rfl⟩
  · obtain ⟨d, rfl⟩ := step_turn_dec_eq_setDec h ht
    exact ⟨rfl, rfl⟩
  · obtain ⟨e, rfl⟩ := exec_encode_eq_setEnc ht
    exact ⟨rfl, rfl⟩
  · obtain ⟨d, rfl⟩ := exec_eq_setDec hi ht
    exact ⟨rfl, rfl⟩

/-! ### What an operation leaves in its unit -/

/-- ENCODE of `v` leaves one ENC unit, the same for every state in which the unit is IDLE (42_codec_laws.md R128). -/
theorem exists_exec_encode_of_idle (v : Word) :
    ∃ e, ∀ s : State, s.enc.ph = .idle → exec (.encode v) s = .next (s.setEnc e) := by
  obtain ⟨e, he, -⟩ := (encStart_inv v).encRun_answers Config.maxLen
  exact ⟨e, fun s hp => by simp [exec, execEncode, hp, encOperation, he]⟩

/-- DECODE of `ibuf` leaves one DEC unit, the same for every state in which the unit is IDLE (42_codec_laws.md R128). -/
theorem exists_exec_decode_of_idle (ibuf : List Byte) :
    ∃ d, ∀ s : State, s.dec.ph = .idle → exec (.decode ibuf ibuf.length) s = .next (s.setDec d) := by
  obtain ⟨d, hd, -⟩ := (decStart_inv (r := ⟨ibuf, ibuf.length⟩) rfl).decRun_answers (Config.maxLen + 1)
  exact ⟨d, fun s hp => by simp [exec, execDecode, hp, decOperation, hd]⟩

/-- Settles O53: the unit that an operation leaves is fixed before the state is. -/
theorem operationsDependOnRequestAlone : Obligations.OperationsDependOnRequestAlone := by
  intro s s'
  refine ⟨fun v hp hp' => ?_, fun ibuf hp hp' => ?_⟩
  · obtain ⟨e, he⟩ := exists_exec_encode_of_idle v
    exact ⟨_, _, he s hp, he s' hp', rfl⟩
  · obtain ⟨d, hd⟩ := exists_exec_decode_of_idle ibuf
    exact ⟨_, _, hd s hp, hd s' hp', rfl⟩

/-! ### Reset and the host's moves -/

/-- Settles O1, by the values that reset writes (10_state.md R25). -/
theorem resetLeavesUnitsIdleAndRegistersZero : Obligations.ResetLeavesUnitsIdleAndRegistersZero :=
  ⟨rfl, rfl, rfl, rfl, rfl, rfl, rfl, rfl, rfl⟩

/-- Settles O5, by the step of each unit's take. -/
theorem takingResponseRemovesOnlyIt : Obligations.TakingResponseRemovesOnlyIt :=
  ⟨fun _ _ h => step_take_enc h, fun _ _ h => step_take_dec h⟩

/-- A DECODE request whose `N` is the length of its `IBUF` (30_encoding.md R64). -/
theorem decode_op_buffer_length (ibuf : List Byte) :
    decode (.op ⟨1#1, .buffer ibuf ibuf.length⟩) = .ok (.decode ibuf ibuf.length) := by
  simp [decode, decodeOp]

/-- A DECODE request with another `N` (log 7). -/
theorem decode_op_buffer_of_ne {ibuf : List Byte} {n : Nat} (h : n ≠ ibuf.length) :
    decode (.op ⟨1#1, .buffer ibuf n⟩) = .error .lengthMismatch := by
  simp [decode, decodeOp, h]

/-- DECODE with an `N` that is not the length of `IBUF` is refused before any unit is looked at (log 7). -/
theorem exec_decode_of_ne {ibuf : List Byte} {n : Nat} (h : n ≠ ibuf.length) (s : State) :
    exec (.decode ibuf n) s = .refused (.badRequest .lengthMismatch) :=
  if_neg h

/-- Settles O10: the other unit's operand by the tag alone, a wrong `N` by the test of its length. -/
theorem impossibleRequestsAreRejected : Obligations.ImpossibleRequestsAreRejected :=
  ⟨fun _ _ => rfl, fun _ => rfl, fun _ _ h => ⟨decode_op_buffer_of_ne h, exec_decode_of_ne h⟩⟩

/-- A presented ENCODE only stands on the ENC unit's line, in whatever phase the unit is (60_exceptions.md R156, log 5). -/
theorem step_present_encode {v : Word} {s : State} {ms : List Move} (h : s.moves = .present ⟨0#1, .value v⟩ :: ms) :
    step s = .next ((s.setMoves ms).setEnc (encPresent v s.enc)) := by
  rw [step_present h]
  rfl

/-- A presented DECODE only stands on the DEC unit's line, in whatever phase the unit is (60_exceptions.md R156, log 5). -/
theorem step_present_decode {ibuf : List Byte} {s : State} {ms : List Move}
    (h : s.moves = .present ⟨1#1, .buffer ibuf ibuf.length⟩ :: ms) :
    step s = .next ((s.setMoves ms).setDec (decPresent ⟨ibuf, ibuf.length⟩ s.dec)) := by
  rw [step_present h, decode_op_buffer_length]
  rfl

/-- Settles O54: presenting changes the unit's request line alone, and does not ask for the phase. -/
theorem requestToIdleUnitIsOnlyPresented : Obligations.RequestToIdleUnitIsOnlyPresented :=
  ⟨fun _ _ _ h _ => step_present_encode h, fun _ _ _ h _ => step_present_decode h⟩

end Sys2Proof.Machine
end

section
/-! PROOFS. The buffers (O16): a read after a write (20_memory.md R33, R34). -/

namespace Sys2Proof.Machine

/-- A read of a whole buffer, absent offsets included: past the end the sequence has no byte (20_memory.md R31, R33). -/
theorem memRead_length (buf : List Byte) (i : Nat) : memRead buf buf.length i = buf[i]? := by
  unfold memRead
  split
  · rfl
  · next h => exact (List.getElem?_eq_none (Nat.le_of_not_lt h)).symm

/-- The offset written reads as the byte written (20_memory.md R34). -/
theorem getElem?_of_memWrite {buf out : List Byte} {k : Nat} {b : Byte} (h : memWrite buf k b = some out) :
    out[k]? = some b := by
  rcases memWrite_eq_some.1 h with ⟨hk, rfl⟩ | ⟨rfl, rfl⟩
  · exact List.getElem?_set_self hk
  · exact List.getElem?_concat_length

/-- Every other offset, absent ones included, reads as before (20_memory.md R34). -/
theorem getElem?_of_memWrite_of_ne {buf out : List Byte} {k a : Nat} {b : Byte} (h : memWrite buf k b = some out)
    (ha : a ≠ k) : out[a]? = buf[a]? := by
  rcases memWrite_eq_some.1 h with ⟨-, rfl⟩ | ⟨rfl, rfl⟩
  · exact List.getElem?_set_ne ha.symm
  · rcases Nat.lt_or_gt_of_ne ha with hin | hpast
    · exact List.getElem?_append_left hin
    · rw [List.getElem?_eq_none hpast.le, List.getElem?_eq_none (by simpa using hpast)]

/-- Settles O16, by what the write's two cases, replacing a byte and adding the next one, leave at an offset. -/
theorem writeChangesOnlyItsOffset : Obligations.WriteChangesOnlyItsOffset := by
  intro buf out k b h
  simp only [memRead_length]
  exact ⟨getElem?_of_memWrite h, fun a => getElem?_of_memWrite_of_ne h⟩

end Sys2Proof.Machine
end

section
/-! PROOFS. The encodings: decode against encode (O6, O7), the byte's classes and the request's tag (O8, O9, O11), what the
fetch makes of them (O13, O14, O15), and the lengths of the encodings (O43). -/

namespace Sys2Proof.Machine

/-! ### The byte's class (30_encoding.md R59) -/

/-- A byte with bit 7 clear is of class `GROUP_LAST`. -/
theorem decodeByte_of_last {b : Byte} (h : contFlag b = false) : decodeByte b = .groupLast (groupOf b) := by
  simp [decodeByte, h]

/-- A byte with bit 7 set is of class `GROUP_CONT`. -/
theorem decodeByte_of_cont {b : Byte} (h : contFlag b = true) : decodeByte b = .groupCont (groupOf b) := by
  simp [decodeByte, h]

@[simp] theorem decodeByte_lastByteOf (d : Group) : decodeByte (lastByteOf d) = .groupLast d := by
  rw [decodeByte_of_last (contFlag_lastByteOf d), groupOf_lastByteOf]

@[simp] theorem decodeByte_contByteOf (d : Group) : decodeByte (contByteOf d) = .groupCont d := by
  rw [decodeByte_of_cont (contFlag_contByteOf d), groupOf_contByteOf]

/-- The word of the class of a byte is that byte. -/
theorem encode_decodeByte (b : Byte) : encode (decodeByte b) = .vb b := by
  cases h : contFlag b with
  | false => rw [decodeByte_of_last h, encode, lastByteOf_groupOf h]
  | true => rw [decodeByte_of_cont h, encode, contByteOf_groupOf h]

/-- A byte class has no operand that could be ill-formed. -/
theorem wf_decodeByte (b : Byte) : (decodeByte b).wf = true := by
  cases h : contFlag b with
  | false => rw [decodeByte_of_last h]; rfl
  | true => rw [decodeByte_of_cont h]; rfl

/-! ### Decode and encode -/

/-- Settles O6, row by row: the tag and the operand beside it, or the byte of the group. -/
theorem decodeInvertsEncode : Obligations.DecodeInvertsEncode := by
  intro i hwf
  cases i with
  | encode v => rfl
  | decode ibuf n =>
    obtain rfl : n = ibuf.length := beq_iff_eq.1 hwf
    exact decode_op_buffer_length ibuf
  | groupLast d => exact congrArg Except.ok (decodeByte_lastByteOf d)
  | groupCont d => exact congrArg Except.ok (decodeByte_contByteOf d)

/-- The only requests that decode are the words of well-formed operations (30_encoding.md R64). -/
theorem encode_of_decode_op {r : OpWord} {i : Instr} (h : decode (.op r) = .ok i) : encode i = .op r ∧ i.wf = true := by
  obtain ⟨op, operand⟩ := r
  rcases BitVec.eq_zero_or_eq_one op with rfl | rfl
  · cases operand with
    | value v => cases h; exact ⟨rfl, rfl⟩
    | buffer ibuf n => cases h
  · cases operand with
    | value v => cases h
    | buffer ibuf n =>
      by_cases hn : n = ibuf.length
      · subst hn
        rw [decode_op_buffer_length] at h
        cases h
        exact ⟨rfl, beq_self_eq_true _⟩
      · rw [decode_op_buffer_of_ne hn] at h
        cases h

/-- Settles O7, by format: a request by its tag and operand, a byte by its class. -/
theorem encodeInvertsDecode : Obligations.EncodeInvertsDecode := by
  intro x i h
  cases x with
  | op r => exact encode_of_decode_op h
  | vb b => cases h; exact ⟨encode_decodeByte b, wf_decodeByte b⟩

/-- Settles O8: bit 7 is the comparison with `0x80`, and the group is the byte modulo 128. -/
theorem everyByteHasExactlyOneClass : Obligations.EveryByteHasExactlyOneClass := by
  intro b
  have hgroup := groupOf_toNat b
  have hb := b.isLt
  constructor
  · intro hlt
    have hlast : contFlag b = false := by rw [contFlag_eq_decide]; exact decide_eq_false (Nat.not_le.2 hlt)
    exact ⟨groupOf b, by omega, congrArg Except.ok (decodeByte_of_last hlast)⟩
  · intro hge
    have hcont : contFlag b = true := by rw [contFlag_eq_decide]; exact decide_eq_true hge
    exact ⟨groupOf b, by omega, congrArg Except.ok (decodeByte_of_cont hcont)⟩

/-- Settles O9: the words of well-formed operations, read back by O6. -/
theorem requestTagSelectsOperation : Obligations.RequestTagSelectsOperation :=
  ⟨fun v => decodeInvertsEncode (.encode v) rfl, decode_op_buffer_length⟩

/-- Settles O11: each word is the written-out word of its instruction, read back by O6. -/
theorem writtenOutWordsDecode : Obligations.WrittenOutWordsDecode :=
  ⟨decodeInvertsEncode (.encode 300#64) rfl, decodeInvertsEncode (.decode [0xAC#8, 0x02#8] 2) rfl,
    decodeInvertsEncode (.groupLast 2#7) rfl, decodeInvertsEncode (.groupCont 0x2C#7) rfl⟩

/-! ### The step and the instruction -/

/-- Settles O13, by the step of a call. -/
theorem stepRunsCalledOperation : Obligations.StepRunsCalledOperation := by
  intro s r ms i hmoves hdec
  rw [step_call hmoves, hdec]
  rfl

/-- The DEC unit in RUN fetches the byte at `IBUF[D.I]` (30_encoding.md R60). -/
theorem decUnitTurn_of_byte {s : State} {b : Byte} (hp : s.dec.ph = .run) (hi : s.dec.i.toNat < s.dec.n)
    (hb : s.dec.ibuf[s.dec.i.toNat]? = some b) : decUnitTurn s = .instr (decodeByte b) s := by
  have hread : memRead s.dec.ibuf s.dec.n s.dec.i.toNat = some b := memRead_eq_some.2 ⟨hi, hb⟩
  simp [decUnitTurn, hp, Nat.not_le.2 hi, hread]

/-- Settles O14: a turn given to the unit and a free turn are both the unit's own turn, which fetches the byte. -/
theorem stepRunsFetchedByte : Obligations.StepRunsFetchedByte := by
  intro s b hp hi hb
  constructor
  · intro ms hmoves
    have hturn := decUnitTurn_of_byte (s := s.setMoves ms) hp hi hb
    exact (step_eq_fetchMove hmoves).trans (congrArg runFetched hturn)
  · intro hmoves
    have hready : decReady s.dec = true := by simp [decReady, hp]
    rw [step_free hmoves, if_pos hready, decUnitTurn_of_byte hp hi hb, runFetched]

/-- A table word that reads as an instruction is placed as the wire word that decodes to it (log 11). -/
theorem exists_wire_of_decodeTableWord {nbits w : Nat} {i : Instr} (h : decodeTableWord nbits w = some i) :
    ∃ x, tableWire nbits w = some x ∧ decode x = .ok i := by
  unfold decodeTableWord at h
  cases hx : tableWire nbits w with
  | none => rw [hx] at h; cases h
  | some x =>
    cases hd : decode x with
    | ok j => simp only [hx, hd] at h; cases h; exact ⟨x, rfl, hd⟩
    | error e => simp only [hx, hd] at h; cases h

/-- The placed byte stands at its offset, whether or not the buffer reached that far (log 3). -/
theorem getElem?_bufferWithByte (buf : List Byte) (i : Nat) (b : Byte) : (bufferWithByte buf i b)[i]? = some b := by
  have hlen : (buf.take i ++ List.replicate (i - buf.length) 0#8).length = i := by
    rw [List.length_append, List.length_take, List.length_replicate]
    omega
  rw [bufferWithByte, List.getElem?_append_right hlen.le, hlen, Nat.sub_self, List.getElem?_cons_zero]

/-- A step from a placed wire word runs the instruction that it decodes to (log 3). -/
theorem step_placeWire {x : Wire} {i : Instr} (h : decode x = .ok i) (s : State) :
    step (placeWire x s) = exec i ((placeWire x s).setMoves s.moves) := by
  cases x with
  | op r => exact stepRunsCalledOperation _ r s.moves i rfl h
  | vb b =>
    cases h
    have hb := getElem?_bufferWithByte s.dec.ibuf s.dec.i.toNat b
    obtain ⟨hi, -⟩ := List.getElem?_eq_some_iff.1 hb
    exact (stepRunsFetchedByte (placeWire (.vb b) s) b rfl hi hb).1 s.moves rfl

/-- Settles O15: the table word is placed as its wire word, and that word runs next. -/
theorem placedWordRunsNext : Obligations.PlacedWordRunsNext := by
  intro s nbits w i h
  obtain ⟨x, hx, hd⟩ := exists_wire_of_decodeTableWord h
  have hplace : s.withFetchWord nbits w = placeWire x s := by rw [State.withFetchWord, hx]
  rw [hplace]
  exact step_placeWire hd s

/-! ### The length of an encoding (30_encoding.md R57) -/

namespace Codec

/-- The encoder's loop emits one byte per digit of the value to base 128, if its bound `k` leaves room for them
(40_encoder.md R70). -/
theorem length_encLoop (k : Nat) (v : Word) (out : List Byte) (hv : v.toNat < 128 ^ (k + 1)) :
    (encLoop k v out).length = out.length + Nat.log 128 v.toNat + 1 := by
  induction k generalizing v out with
  | zero => simp [encLoop, Nat.log_of_lt (b := 128) (by simpa using hv)]
  | succ k ih =>
    have hcmp : 0x80#64 ≤ v ↔ 128 ≤ v.toNat := Iff.rfl
    unfold encLoop
    by_cases hge : 128 ≤ v.toNat
    · have hshr : (v >>> 7).toNat = v.toNat / 128 := shr7_toNat v
      have hrest : (v >>> 7).toNat < 128 ^ (k + 1) := by
        rw [hshr]
        exact Nat.div_lt_of_lt_mul (by rwa [← Nat.pow_succ'])
      rw [if_pos (hcmp.2 hge), ih _ _ hrest, hshr, Nat.log_of_one_lt_of_le (by omega) hge, List.length_append,
        List.length_singleton]
      omega
    · rw [if_neg (mt hcmp.1 hge), Nat.log_of_lt (Nat.not_le.1 hge), List.length_append, List.length_singleton,
        Nat.add_zero]

/-- An encoding has one byte per digit of its value to base 128. -/
theorem length_enc (v : Word) : (enc v).length = Nat.log 128 v.toNat + 1 := by
  have hv : v.toNat < 128 ^ (9 + 1) := v.isLt.trans (by norm_num)
  rw [enc, length_encLoop 9 v [] hv, List.length_nil, Nat.zero_add]

end Codec

/-- Settles O43: the length is the number of digits to base 128, which the powers of 128 tell. -/
theorem lengthIsToldByPowersOf128 : Obligations.LengthIsToldByPowersOf128 := by
  intro v k hk _
  obtain ⟨m, rfl⟩ := Nat.exists_eq_add_of_le' hk
  rw [Codec.length_enc, Nat.add_sub_cancel, Nat.pow_mul, Nat.pow_mul, Nat.add_right_cancel_iff, Nat.add_eq_right]
  by_cases hm : m = 0
  · subst hm
    simp [Nat.log_eq_zero_iff]
  · rw [Nat.log_eq_iff (.inl hm)]
    simp [hm]

end Sys2Proof.Machine
end

section
/-! PROOFS. The encoder (O17 to O22, O49): the offset of the last byte, the algorithm and its closed form, the unit
after each byte step, and the operation against the turns. -/

namespace Sys2Proof.Machine

/-! ### The bytes emitted (40_encoder.md R73, R74) -/

/-- `b = (v mod 128) + 128` (40_encoder.md R73). -/
theorem contByte_toNat (v : Word) : (contByte v).toNat = v.toNat % 128 + 128 := by
  have hflag := contFlag_contByteOf (v.setWidth 7)
  have hgroup := groupOf_toNat (contByteOf (v.setWidth 7))
  rw [contFlag_eq_decide, decide_eq_true_iff] at hflag
  rw [groupOf_contByteOf, lowGroup_toNat] at hgroup
  have hlt := (contByteOf (v.setWidth 7)).isLt
  rw [contByte_eq]
  omega

/-- The last byte is below `0x80` (40_encoder.md R74). -/
theorem lastByte_lt (v : Word) : (lastByte v).toNat < 0x80 := by
  have hflag := contFlag_lastByteOf (v.setWidth 7)
  rw [contFlag_eq_decide, decide_eq_false_iff_not] at hflag
  rw [lastByte_eq]
  exact Nat.not_le.1 hflag

/-- `b = v mod 128` (40_encoder.md R74). -/
theorem lastByte_toNat (v : Word) : (lastByte v).toNat = v.toNat % 128 := by
  have hgroup := groupOf_toNat (lastByteOf (v.setWidth 7))
  have hlt := lastByte_lt v
  rw [groupOf_lastByteOf, lowGroup_toNat] at hgroup
  rw [lastByte_eq] at hlt ⊢
  omega

namespace Codec

/-! ### The offset of the last byte -/

/-- The offset of the last byte of the encoding of `v`: its digits to base 128, less one (30_encoding.md R57). -/
def lastOffset (v : Word) : Nat := Nat.log 128 v.toNat

/-- `LEN` is one more than the offset of the last byte. -/
theorem length_enc_eq_lastOffset (v : Word) : (enc v).length = lastOffset v + 1 := length_enc v

/-- At most 9 bytes come before the last (40_encoder.md R75). -/
theorem lastOffset_le (v : Word) : lastOffset v ≤ 9 := by
  have hv : v.toNat < 128 ^ 10 := v.isLt.trans (by norm_num)
  exact Nat.le_of_lt_succ (Nat.log_lt_of_lt_pow' (by decide) hv)

/-- The canonical length counts the bytes up to the last offset (30_encoding.md R56). -/
theorem canonicalLength_eq_lastOffset (v : Word) : canonicalLength v = lastOffset v + 1 := by
  by_cases hv : v = 0#64
  · subst hv; rfl
  · have hlog : Nat.log 128 v.toNat = Nat.log2 v.toNat / 7 := by
      rw [Nat.log2_eq_log_two, ← Nat.log_pow_left]
    rw [canonicalLength, bitLength, if_neg hv, lastOffset, hlog]
    omega

/-- What is left of the value after `j` groups (00_scope.md R9). -/
theorem ushiftRight_groups_toNat (v : Word) (j : Nat) : (v >>> (7 * j)).toNat = v.toNat / 128 ^ j := by
  rw [BitVec.toNat_ushiftRight, Nat.shiftRight_eq_div_pow, Nat.pow_mul]

/-- A byte is a continuation byte exactly before the last offset: the encoder's test (40_encoder.md R73, R74). -/
theorem ge_ushiftRight_iff {v : Word} {j : Nat} : 0x80 ≤ (v >>> (7 * j)).toNat ↔ j < lastOffset v := by
  have hlog := Nat.log_pos_iff (b := 128) (n := (v >>> (7 * j)).toNat)
  rw [ushiftRight_groups_toNat, Nat.log_div_base_pow] at hlog
  rw [ushiftRight_groups_toNat, lastOffset]
  omega

/-- At the last offset one group is left, and the encoder's test fails (40_encoder.md R74). -/
theorem ushiftRight_lastOffset_lt (v : Word) : (v >>> (7 * lastOffset v)).toNat < 0x80 :=
  Nat.not_le.1 fun h => (ge_ushiftRight_iff.1 h).ne rfl

/-- The value after one more group. -/
theorem ushiftRight_groups_succ (v : Word) (j : Nat) : (v >>> (7 * j)) >>> 7 = v >>> (7 * (j + 1)) := by
  rw [← BitVec.shiftRight_add, Nat.mul_succ]

/-! ### The algorithm and its closed form -/

/-- The first `j` bytes of the encoding of `v`, while all are continuation bytes (40_encoder.md R73). -/
def contBytes (v : Word) (j : Nat) : List Byte := (List.range j).map fun k => contByte (v >>> (7 * k))

@[simp] theorem contBytes_zero (v : Word) : contBytes v 0 = [] := rfl

@[simp] theorem length_contBytes (v : Word) (j : Nat) : (contBytes v j).length = j := by simp [contBytes]

theorem contBytes_succ (v : Word) (j : Nat) : contBytes v (j + 1) = contBytes v j ++ [contByte (v >>> (7 * j))] := by
  simp [contBytes, List.range_succ]

/-- The encoder's loop, `j` turns in: what is emitted and what is left of the value (40_encoder.md R70). -/
theorem enc_eq_encLoop {v : Word} {j : Nat} (hj : j ≤ lastOffset v) :
    enc v = encLoop (9 - j) (v >>> (7 * j)) (contBytes v j) := by
  induction j with
  | zero => simp [enc]
  | succ j ih =>
    have hge : 0x80#64 ≤ v >>> (7 * j) := ge_ushiftRight_iff.2 hj
    have hleft : 9 - j = (9 - (j + 1)) + 1 := by have := lastOffset_le v; omega
    rw [ih (Nat.le_of_succ_le hj), hleft, encLoop, if_pos hge, ushiftRight_groups_succ, ← contBytes_succ]

/-- A value of one group ends the loop. -/
theorem encLoop_of_lt {v : Word} (hv : v.toNat < 0x80) (k : Nat) (out : List Byte) :
    encLoop k v out = out ++ [lastByte v] := by
  cases k with
  | zero => rfl
  | succ k => exact if_neg (Nat.not_le.2 hv)

/-- The encoding of `v`: the continuation bytes up to the last offset, and the last byte (40_encoder.md R70). -/
theorem enc_eq_contBytes_append (v : Word) :
    enc v = contBytes v (lastOffset v) ++ [lastByte (v >>> (7 * lastOffset v))] := by
  rw [enc_eq_encLoop le_rfl, encLoop_of_lt (ushiftRight_lastOffset_lt v)]

/-- The closed form has the same bytes (40_encoder.md R71). -/
theorem encClosed_eq_contBytes_append (v : Word) :
    encClosed v = contBytes v (lastOffset v) ++ [lastByte (v >>> (7 * lastOffset v))] := by
  rw [encClosed, canonicalLength_eq_lastOffset, List.range_succ, List.map_append, List.map_singleton, if_neg (by omega),
    lastByte_eq]
  congr 1
  refine List.map_congr_left fun k hk => ?_
  rw [if_pos (Nat.succ_lt_succ (List.mem_range.1 hk)), contByte_eq]
  rfl

/-- The last byte of a longer encoding holds the highest set bit of the value (40_encoder.md R71). -/
theorem lastByte_ne_zero {v : Word} (h : 0 < lastOffset v) : lastByte (v >>> (7 * lastOffset v)) ≠ 0#8 := by
  intro hzero
  have hbyte := lastByte_toNat (v >>> (7 * lastOffset v))
  have hlt := ushiftRight_lastOffset_lt v
  have hv : v.toNat ≠ 0 := fun hv => by simp [lastOffset, hv] at h
  have hpos : 0 < (v >>> (7 * lastOffset v)).toNat := by
    rw [ushiftRight_groups_toNat]
    exact Nat.div_pos (Nat.pow_log_le_self 128 hv) (by positivity)
  rw [hzero, BitVec.toNat_zero] at hbyte
  omega

end Codec

/-- Settles O18: algorithm and closed form both give the continuation bytes up to the last offset, and the last byte. -/
theorem encoderHasClosedForm : Obligations.EncoderHasClosedForm := by
  intro v
  have hlast : (Codec.enc v).getLast? = some (lastByte (v >>> (7 * Codec.lastOffset v))) := by
    rw [Codec.enc_eq_contBytes_append, List.getLast?_concat]
  refine ⟨?_, ?_, ?_, ?_⟩
  · rw [Codec.enc_eq_contBytes_append, Codec.encClosed_eq_contBytes_append]
  · rw [Codec.length_enc_eq_lastOffset, Codec.canonicalLength_eq_lastOffset]
  · intro b hb
    cases hlast.symm.trans hb
    exact lastByte_lt _
  · intro hlong heq
    rw [Codec.length_enc_eq_lastOffset] at hlong
    exact Codec.lastByte_ne_zero (Nat.lt_of_succ_lt_succ hlong) (Option.some.inj (hlast.symm.trans heq))

/-! ### A turn of the unit (40_encoder.md R72 to R74) -/

/-- An IDLE unit accepts the request presented (40_encoder.md R72). -/
theorem encTurn_of_request {e : EncUnit} {v : Word} (hp : e.ph = .idle) (hr : e.req = some v) :
    encTurn e = .ok (encStart v) := by
  simp [encTurn, hp, hr]

/-- A unit in RUN takes its byte step (40_encoder.md R73, R74). -/
theorem encTurn_of_run {e : EncUnit} (hp : e.ph = .run) : encTurn e = encStep e := by
  simp [encTurn, hp]

/-- A turn that the unit answers, as a step of the machine. -/
theorem step_turn_enc_of_ok {s : State} {ms : List Move} {e : EncUnit} (h : s.moves = .turn .enc :: ms)
    (he : encTurn s.enc = .ok e) : step s = .next ((s.setMoves ms).setEnc e) := by
  rw [step_turn_enc h, he, liftEnc_ok]

/-- Settles O19: the turn of an IDLE unit accepts the request. -/
theorem encoderStartLoadsRequest : Obligations.EncoderStartLoadsRequest := by
  intro s ms v hmoves hp hr
  exact ⟨_, step_turn_enc_of_ok hmoves (encTurn_of_request hp hr), rfl, rfl, rfl, rfl, rfl, rfl, rfl⟩

/-- Settles O20: the byte is the continuation byte of the low group. -/
theorem encoderContinuationStepEmitsAndShifts : Obligations.EncoderContinuationStepEmitsAndShifts := by
  intro s ms hmoves hp hv hl hn
  have hturn := (encTurn_of_run hp).trans (encStep_of_ge hv hl hn)
  exact ⟨contByte s.enc.v, contByte_toNat _, step_turn_enc_of_ok hmoves hturn⟩

/-- Settles O21: the byte is the last one, which is all of the value. -/
theorem encoderLastStepResponds : Obligations.EncoderLastStepResponds := by
  intro s ms hmoves hp hv hl hn
  have hturn := (encTurn_of_run hp).trans (encStep_of_lt hv hl hn)
  exact ⟨lastByte s.enc.v, by rw [lastByte_toNat, Nat.mod_eq_of_lt hv], step_turn_enc_of_ok hmoves hturn⟩

/-! ### The unit after each byte step (40_encoder.md R75) -/

/-- The unit in RUN on `v` after `j` continuation bytes. -/
def encAfter (v : Word) (j : Nat) : EncUnit :=
  { v := v >>> (7 * j), n := BitVec.ofNat 4 j, ph := .run, obuf := Codec.contBytes v j, req := none, resp := none }

/-- The unit that has responded with the encoding of `v`. -/
def encDone (v : Word) : EncUnit :=
  { v := v >>> (7 * Codec.lastOffset v), n := BitVec.ofNat 4 (Codec.enc v).length, ph := .idle, obuf := [], req := none
    resp := some ⟨Codec.enc v, BitVec.ofNat 4 (Codec.enc v).length⟩ }

/-- The start has emitted nothing (40_encoder.md R72). -/
theorem encStart_eq_encAfter (v : Word) : encStart v = encAfter v 0 := by
  simp [encStart, encAfter]

/-- `E.N` counts the bytes out (10_state.md R13). -/
theorem encAfter_count {v : Word} {j : Nat} (hj : j ≤ Codec.lastOffset v) :
    (encAfter v j).n.toNat = j ∧ (encAfter v j).n.toNat ≤ 9 := by
  have h9 := Codec.lastOffset_le v
  have hn : (encAfter v j).n.toNat = j := Nat.mod_eq_of_lt (by omega)
  omega

/-- Before the last offset the unit emits a continuation byte (40_encoder.md R73). -/
theorem encStep_encAfter {v : Word} {j : Nat} (hj : j < Codec.lastOffset v) :
    encStep (encAfter v j) = .ok (encAfter v (j + 1)) := by
  obtain ⟨hn, h9⟩ := encAfter_count hj.le
  rw [encStep_of_ge (Codec.ge_ushiftRight_iff.2 hj) ((Codec.length_contBytes v j).trans hn.symm) h9]
  simp only [encAfter, shr7, Codec.ushiftRight_groups_succ, Codec.contBytes_succ, BitVec.ofNat_add]

/-- At the last offset the unit emits the last byte and responds (40_encoder.md R74). -/
theorem encStep_encAfter_lastOffset (v : Word) : encStep (encAfter v (Codec.lastOffset v)) = .ok (encDone v) := by
  obtain ⟨hn, h9⟩ := encAfter_count (v := v) le_rfl
  rw [encStep_of_lt (Codec.ushiftRight_lastOffset_lt v) ((Codec.length_contBytes v _).trans hn.symm) h9]
  simp only [encAfter, encRespond, encDone, Codec.length_enc_eq_lastOffset, BitVec.ofNat_add,
    ← Codec.enc_eq_contBytes_append]

/-! ### The whole operation (40_encoder.md R70) -/

/-- A unit in RUN takes its byte step and runs on. -/
theorem encRun_succ {e e' : EncUnit} (hp : e.ph = .run) (he : encStep e = .ok e') (k : Nat) :
    encRun (k + 1) e = encRun k e' := by
  simp [encRun, hp, he]

/-- An IDLE unit has nothing to run. -/
theorem encRun_of_idle {e : EncUnit} (hp : e.ph = .idle) (k : Nat) : encRun k e = .ok e := by
  cases k with
  | zero => rfl
  | succ k => simp [encRun, hp]

/-- The operation, `j` byte steps in. -/
theorem encOperation_eq_encRun {v : Word} {j : Nat} (hj : j ≤ Codec.lastOffset v) :
    encOperation v = encRun (10 - j) (encAfter v j) := by
  induction j with
  | zero => rw [encOperation, encStart_eq_encAfter, Nat.sub_zero]
  | succ j ih =>
    have hleft : 10 - j = (10 - (j + 1)) + 1 := by have := Codec.lastOffset_le v; omega
    rw [ih (Nat.le_of_succ_le hj), hleft, encRun_succ rfl (encStep_encAfter hj)]

/-- The operation ends in the response with the encoding. -/
theorem encOperation_eq_ok (v : Word) : encOperation v = .ok (encDone v) := by
  have hleft : 10 - Codec.lastOffset v = (9 - Codec.lastOffset v) + 1 := by have := Codec.lastOffset_le v; omega
  rw [encOperation_eq_encRun le_rfl, hleft, encRun_succ rfl (encStep_encAfter_lastOffset v), encRun_of_idle rfl]

/-- ENCODE on an IDLE unit leaves the unit that has responded with the encoding (40_encoder.md R70). -/
theorem exec_encode_of_idle (v : Word) {s : State} (hp : s.enc.ph = .idle) :
    exec (.encode v) s = .next (s.setEnc (encDone v)) := by
  simp [exec, execEncode, hp, encOperation_eq_ok]

/-- Settles O17: the operation's byte steps end in the unit that has responded with the encoding. -/
theorem encodeRespondsWithAlgorithmsBytes : Obligations.EncodeRespondsWithAlgorithmsBytes := by
  intro v s hp
  have hoffset : (Codec.enc v).length - 1 = Codec.lastOffset v := by
    rw [Codec.length_enc_eq_lastOffset, Nat.add_sub_cancel]
  rw [hoffset]
  exact ⟨_, exec_encode_of_idle v hp, rfl, rfl, rfl, rfl, rfl, rfl, rfl, rfl⟩

/-! ### One byte a turn (40_encoder.md R76) -/

/-- A run and one step more. -/
theorem stepN_succ_of_eq_next {s t u : State} {k : Nat} (h : stepN k s = .next t) (ht : step t = .next u) :
    stepN (k + 1) s = .next u := by
  rw [stepN_add 1 h, stepN_succ 0 ht, stepN_zero]

/-- After the start and `j` turns more the unit has emitted `j` bytes. -/
theorem stepN_turns_eq_encAfter {s : State} {v : Word} (hp : s.enc.ph = .idle) (hr : s.enc.req = some v) {j : Nat}
    (hj : j ≤ Codec.lastOffset v) {ms : List Move} (hmoves : s.moves = List.replicate (j + 1) (.turn .enc) ++ ms) :
    stepN (j + 1) s = .next ((s.setMoves ms).setEnc (encAfter v j)) := by
  induction j generalizing ms with
  | zero =>
    have hstart := step_turn_enc_of_ok (ms := ms) hmoves (encTurn_of_request hp hr)
    rw [stepN_succ 0 hstart, stepN_zero, encStart_eq_encAfter]
  | succ j ih =>
    have hsplit : s.moves = List.replicate (j + 1) (.turn .enc) ++ .turn .enc :: ms := by
      rw [hmoves, List.replicate_succ', List.append_assoc, List.singleton_append]
    exact stepN_succ_of_eq_next (ih (Nat.le_of_succ_le hj) hsplit)
      (step_turn_enc_of_ok rfl ((encTurn_of_run rfl).trans (encStep_encAfter hj)))

/-- Settles O22: the turn after the last continuation byte responds, and until then the unit is in RUN. -/
theorem encoderTurnsAgreeWithAtomicOperation : Obligations.EncoderTurnsAgreeWithAtomicOperation := by
  intro s v hp hr hmoves
  have hsteps : Codec.encSteps v = Codec.lastOffset v + 1 + 1 := by
    rw [Codec.encSteps, Codec.canonicalLength_eq_lastOffset, Nat.add_comm]
  rw [hsteps] at hmoves ⊢
  have hrun := stepN_turns_eq_encAfter hp hr le_rfl (hmoves.trans List.replicate_succ')
  have hlast := (encTurn_of_run rfl).trans (encStep_encAfter_lastOffset v)
  have hdone := stepN_succ_of_eq_next hrun (step_turn_enc_of_ok rfl hlast)
  exact ⟨_, _, _, hdone, exec_encode_of_idle v hp, rfl, rfl, rfl, hrun, rfl⟩

/-! ### Both operations answer -/

/-- A unit in RUN holds the called ENCODE on its line (70_reset_and_hazards.md R175). -/
theorem exec_encode_of_run (v : Word) {s : State} (hp : s.enc.ph = .run) :
    exec (.encode v) s = .next (s.setEnc (encPresent v s.enc)) := by
  simp [exec, execEncode, hp]

/-- A unit in RUN holds the called DECODE on its line (70_reset_and_hazards.md R175). -/
theorem exec_decode_of_run (ibuf : List Byte) {s : State} (hp : s.dec.ph = .run) :
    exec (.decode ibuf ibuf.length) s = .next (s.setDec (decPresent ⟨ibuf, ibuf.length⟩ s.dec)) := by
  simp [exec, execDecode, hp]

/-- Settles O49: an IDLE unit runs the operation to its end, and a unit in RUN holds the request. -/
theorem operationsAnswerInEveryState : Obligations.OperationsAnswerInEveryState := by
  intro s
  constructor
  · intro v
    cases hp : s.enc.ph with
    | idle => exact ⟨_, exec_encode_of_idle v hp⟩
    | run => exact ⟨_, exec_encode_of_run v hp⟩
  · intro ibuf
    cases hp : s.dec.ph with
    | idle =>
      obtain ⟨d, hd⟩ := exists_exec_decode_of_idle ibuf
      exact ⟨_, hd s hp⟩
    | run => exact ⟨_, exec_decode_of_run ibuf hp⟩

end Sys2Proof.Machine
end

section
/-! PROOFS. The algorithm of the decoder (O24, O25, O31, O44): how an input ends, the three cases and the closed form, the
tenth group, and padded encodings. -/

namespace Sys2Proof.Machine

namespace Codec

/-! ### How an input ends (41_decoder.md R91)

Every input is a run of at most nine continuation bytes and then what ends the operation: nothing more, a terminating
byte, or a tenth continuation byte. -/

/-- A run of continuation bytes after which the decoder still goes on (41_decoder.md R97). -/
structure Continues (p : List Byte) : Prop where
  length_le : p.length ≤ 9
  flags : ∀ b ∈ p, contFlag b = true

theorem continues_nil : Continues [] := ⟨by simp, by simp⟩

/-- The decoder goes on after one byte more, if this is a continuation byte and not the tenth (41_decoder.md R97). -/
theorem continues_concat {p : List Byte} {b : Byte} :
    Continues (p ++ [b]) ↔ Continues p ∧ p.length ≤ 8 ∧ contFlag b = true := by
  constructor
  · rintro ⟨hl, hf⟩
    rw [List.length_append, List.length_singleton] at hl
    exact ⟨⟨by omega, fun x hx => hf x (List.mem_append_left _ hx)⟩, by omega, hf b (by simp)⟩
  · rintro ⟨⟨-, hf⟩, hl, hb⟩
    refine ⟨by rw [List.length_append, List.length_singleton]; omega, fun x hx => ?_⟩
    rcases List.mem_append.1 hx with hx | hx
    · exact hf x hx
    · rwa [List.mem_singleton.1 hx]

/-- After the run `p` the operation ends at the next step, `rest` being what is left of the input (41_decoder.md R91). -/
inductive Ends (p : List Byte) : List Byte → Prop where
  /-- The input ends (R93). -/
  | truncated : Ends p []
  /-- A terminating byte (R95). -/
  | last {b : Byte} {rest : List Byte} (hb : contFlag b = false) : Ends p (b :: rest)
  /-- A tenth continuation byte (R97). -/
  | overlong {b : Byte} {rest : List Byte} (hb : contFlag b = true) (hl : p.length = 9) : Ends p (b :: rest)

/-- What is left of an input after a run read so far begins with more of the run, and then ends the operation. -/
theorem Continues.exists_ends {p : List Byte} (hp : Continues p) (rest : List Byte) :
    ∃ q r, p ++ rest = q ++ r ∧ Continues q ∧ Ends q r := by
  induction rest generalizing p with
  | nil => exact ⟨p, [], rfl, hp, .truncated⟩
  | cons b rest ih =>
    cases hb : contFlag b with
    | false => exact ⟨p, _, rfl, hp, .last hb⟩
    | true =>
      by_cases hl : p.length = 9
      · exact ⟨p, _, rfl, hp, .overlong hb hl⟩
      · have hl8 : p.length ≤ 8 := by have := hp.length_le; omega
        obtain ⟨q, r, heq, hq⟩ := ih (continues_concat.2 ⟨hp, hl8, hb⟩)
        exact ⟨q, r, by rw [← heq, List.append_assoc, List.singleton_append], hq⟩

/-- Every input is a run and what ends the operation (41_decoder.md R91). -/
theorem exists_continues_ends (ibuf : List Byte) : ∃ p rest, ibuf = p ++ rest ∧ Continues p ∧ Ends p rest :=
  continues_nil.exists_ends ibuf

/-! ### The accumulator -/

/-- ORing the group after at most nine bytes in is adding it to the sum modulo `2^64` (30_encoding.md R52, 41_decoder.md
R94, R96). -/
theorem or_group_eq_ofNat_groupSum {p : List Byte} (hl : p.length ≤ 9) (b : Byte) :
    BitVec.ofNat 64 (groupSum p) ||| (groupOf b).setWidth 64 <<< (7 * p.length) =
      BitVec.ofNat 64 (groupSum (p ++ [b])) := by
  have hlt := groupSum_lt p
  have h64 : groupSum p < 2 ^ 64 := hlt.trans_le (Nat.pow_le_pow_right (by decide) (by omega))
  have hacc : (BitVec.ofNat 64 (groupSum p)).toNat = groupSum p := Nat.mod_eq_of_lt h64
  have hgroup : ((groupOf b).setWidth 64).toNat = (groupOf b).toNat := BitVec.toNat_setWidth_of_le (by decide)
  apply BitVec.eq_of_toNat_eq
  rw [or_shift_toNat _ _ _ (by omega) (hacc.symm ▸ hlt), hacc, hgroup, groupSum_append, BitVec.toNat_ofNat]
  simp [groupSum, Nat.mul_comm]

/-! ### The algorithm's three cases (41_decoder.md R90) -/

/-- The decoder's loop after a run: the sum of the groups read, and the shift and the offset that the length tells. -/
theorem dec_eq_decLoop {p : List Byte} (hp : Continues p) (rest : List Byte) :
    dec (p ++ rest) = decLoop ((9 - p.length) + 1) (BitVec.ofNat 64 (groupSum p)) (7 * p.length) p.length rest := by
  induction p using List.reverseRecOn generalizing rest with
  | nil => rfl
  | append_singleton p b ih =>
    obtain ⟨hq, hl, hb⟩ := continues_concat.1 hp
    have hleft : 9 - p.length = (9 - (p.length + 1)) + 1 := by omega
    have hshift : ¬ 7 * p.length + 7 > Config.shiftLimit := by simp only [Config.shiftLimit]; omega
    rw [List.append_assoc, List.singleton_append, ih hq, decLoop]
    simp only [hb, if_true, if_neg hshift, or_group_eq_ofNat_groupSum hq.length_le, List.length_append,
      List.length_singleton, hleft, Nat.mul_succ]

/-- An input of at most nine continuation bytes and nothing else is truncated (41_decoder.md R91). -/
theorem dec_of_truncated {p : List Byte} (hp : Continues p) : dec p = .failed .truncated := by
  have h := dec_eq_decLoop hp []
  rwa [List.append_nil] at h

/-- A terminating byte within the first ten gives the value (41_decoder.md R91). -/
theorem dec_of_last {p : List Byte} (hp : Continues p) {b : Byte} (hb : contFlag b = false) (rest : List Byte) :
    dec (p ++ b :: rest) =
      .ok (BitVec.ofNat 64 (groupSum (p ++ [b]))) (BitVec.ofNat 4 (p.length + 1)) rest := by
  rw [dec_eq_decLoop hp, decLoop]
  simp only [hb, Bool.false_eq_true, if_false, or_group_eq_ofNat_groupSum hp.length_le]

/-- A tenth continuation byte makes the input overlong (41_decoder.md R91). -/
theorem dec_of_overlong {p : List Byte} (hp : Continues p) (hl : p.length = 9) {b : Byte} (hb : contFlag b = true)
    (rest : List Byte) : dec (p ++ b :: rest) = .failed .overlong := by
  have hshift : 7 * p.length + 7 > Config.shiftLimit := by simp only [Config.shiftLimit]; omega
  rw [dec_eq_decLoop hp, decLoop]
  simp only [hb, if_true, if_pos hshift]

/-! ### The closed form (41_decoder.md R91) -/

/-- `t` is the length of the run before a terminating byte. -/
theorem terminator_of_last {p : List Byte} (hp : Continues p) {b : Byte} (hb : contFlag b = false) (rest : List Byte) :
    terminator (p ++ b :: rest) = some p.length := by
  have hten : Config.maxLen = p.length + ((9 - p.length) + 1) := by
    have := hp.length_le; simp only [Config.maxLen]; omega
  have hrun : p.findIdx? (fun b => !contFlag b) = none :=
    List.findIdx?_eq_none_iff.2 fun x hx => by simp [hp.flags x hx]
  rw [terminator, hten, List.take_length_add_append, List.take_succ_cons, List.findIdx?_append, hrun, List.findIdx?_cons]
  simp [hb]

/-- There is no `t` if the first ten bytes, as far as they go, are continuation bytes. -/
theorem terminator_eq_none {ibuf : List Byte} (h : ∀ b ∈ ibuf.take 10, contFlag b = true) : terminator ibuf = none :=
  List.findIdx?_eq_none_iff.2 fun x hx => by simp [h x hx]

end Codec

/-- Settles O24, by how the input ends: the algorithm and the closed form have the same three cases. -/
theorem decoderHasClosedForm : Obligations.DecoderHasClosedForm := by
  intro ibuf
  obtain ⟨p, rest, rfl, hp, hend⟩ := Codec.exists_continues_ends ibuf
  have hl := hp.length_le
  cases hend with
  | truncated =>
    rw [List.append_nil, Codec.dec_of_truncated hp, Codec.decClosed,
      Codec.terminator_eq_none fun b hb => hp.flags b (List.mem_of_mem_take hb)]
    exact (if_pos hl).symm
  | @last b rest hb =>
    have hsplit : p ++ b :: rest = (p ++ [b]) ++ rest := by simp
    have hlen : (p ++ [b]).length = p.length + 1 := by simp
    rw [Codec.dec_of_last hp hb, Codec.decClosed, Codec.terminator_of_last hp hb]
    simp only [hsplit, List.take_left' hlen, List.drop_left' hlen]
  | @overlong b rest hb h9 =>
    have htake : (p ++ b :: rest).take 10 = p ++ [b] := by
      rw [show p ++ b :: rest = (p ++ [b]) ++ rest by simp, List.take_left' (by simp [h9])]
    have hflags : ∀ x ∈ p ++ [b], contFlag x = true := fun x hx => by
      rcases List.mem_append.1 hx with hx | hx
      · exact hp.flags x hx
      · rwa [List.mem_singleton.1 hx]
    rw [Codec.dec_of_overlong hp h9 hb, Codec.decClosed, Codec.terminator_eq_none (htake ▸ hflags)]
    exact (if_neg (by simp [h9])).symm

/-- Settles O25, by how the ten bytes end: they hold a terminating byte or are ten continuation bytes, and what follows
them is not read. -/
theorem decoderIgnoresBytesPastTheTenth : Obligations.DecoderIgnoresBytesPastTheTenth := by
  intro p a b hten
  obtain ⟨q, rest, rfl, hq, hend⟩ := Codec.exists_continues_ends p
  have hl := hq.length_le
  cases hend with
  | truncated => simp at hten; omega
  | @last x rest hx =>
    have hdec (c : List Byte) : Codec.dec (q ++ x :: rest ++ c) =
        .ok (BitVec.ofNat 64 (Codec.groupSum (q ++ [x]))) (BitVec.ofNat 4 (q.length + 1)) (rest ++ c) := by
      rw [List.append_assoc, List.cons_append, Codec.dec_of_last hq hx]
    rw [hdec, hdec]
    exact ⟨fun v c r h => (by cases h; exact ⟨rest, rfl, rfl⟩), fun k h => (by cases h)⟩
  | @overlong x rest hx h9 =>
    have hdec (c : List Byte) : Codec.dec (q ++ x :: rest ++ c) = .failed .overlong := by
      rw [List.append_assoc, List.cons_append, Codec.dec_of_overlong hq h9 hx]
    rw [hdec, hdec]
    exact ⟨fun v c r h => (by cases h), fun k h => h⟩

/-! ### The tenth group (41_decoder.md R96) -/

/-- A group shifted to bit 63 leaves its bit 0 there and nothing else (41_decoder.md R96). -/
theorem group_shiftLeft_63 (d : Group) :
    d.setWidth 64 <<< 63 = if d.getLsbD 0 then 0x8000000000000000#64 else 0#64 := by
  revert d; decide

/-- Bit 0 of a byte is bit 0 of its group (30_encoding.md R50). -/
theorem getLsbD_zero_groupOf (b : Byte) : (groupOf b).getLsbD 0 = b.getLsbD 0 := by
  revert b; decide

/-- Settles O31: the tenth group is shifted to bit 63, and the terminating byte ends the operation. -/
theorem tenthGroupKeepsOnlyBitZero : Obligations.TenthGroupKeepsOnlyBitZero := by
  refine ⟨group_shiftLeft_63, fun p rest b h9 hflags hb => ?_⟩
  have hp : Codec.Continues p := ⟨h9.le, hflags⟩
  rw [Codec.dec_of_last hp hb, ← Codec.or_group_eq_ofNat_groupSum hp.length_le, h9, group_shiftLeft_63,
    getLsbD_zero_groupOf]

/-! ### Padded encodings (41_decoder.md R99) -/

namespace Codec

@[simp] theorem groupSum_singleton (b : Byte) : groupSum [b] = (groupOf b).toNat := by simp [groupSum]

/-- The groups of the first `j` bytes of an encoding are the low `7j` bits of the value (30_encoding.md R53). -/
theorem groupSum_contBytes (v : Word) (j : Nat) : groupSum (contBytes v j) = v.toNat % 128 ^ j := by
  induction j with
  | zero => simp [groupSum, Nat.mod_one]
  | succ j ih =>
    rw [contBytes_succ, groupSum_append, ih, length_contBytes, groupSum_singleton, contByte_eq, groupOf_contByteOf,
      lowGroup_toNat, ushiftRight_groups_toNat, Nat.pow_mul, Nat.mod_pow_succ]

/-- The groups of an encoding sum to its value (30_encoding.md R52, R53). -/
theorem groupSum_enc (v : Word) : groupSum (enc v) = v.toNat := by
  rw [enc_eq_contBytes_append, groupSum_append, groupSum_contBytes, length_contBytes, groupSum_singleton, lastByte_eq,
    groupOf_lastByteOf, lowGroup_toNat, Nat.mod_eq_of_lt (ushiftRight_lastOffset_lt v), ushiftRight_groups_toNat,
    Nat.pow_mul, Nat.mod_add_div]

/-- Setting the flag of a byte leaves its group (30_encoding.md R50). -/
theorem groupOf_or_flag (b : Byte) : groupOf (b ||| 0x80#8) = groupOf b := by
  revert b; decide

theorem contFlag_or_flag (b : Byte) : contFlag (b ||| 0x80#8) = true := by
  revert b; decide

/-- Setting flags leaves the groups' sum. -/
theorem groupSum_map_or_flag (a : List Byte) : groupSum (a.map fun b => b ||| 0x80#8) = groupSum a := by
  induction a with
  | nil => rfl
  | cons b a ih => simp only [List.map_cons, groupSum, groupOf_or_flag, ih]

/-- Zero groups sum to 0. -/
theorem groupSum_replicate_zero (p : Nat) : groupSum (List.replicate p 0x80#8) = 0 := by
  induction p with
  | zero => rfl
  | succ p ih => rw [List.replicate_succ, groupSum, ih]; rfl

/-- The bytes of a padded encoding before its final `00` (41_decoder.md R99). -/
def paddedRun (v : Word) (p : Nat) : List Byte :=
  (enc v).map (fun b => b ||| 0x80#8) ++ List.replicate p 0x80#8

theorem padded_eq_paddedRun_append (v : Word) (p : Nat) : padded v p = paddedRun v p ++ [0x00#8] := rfl

/-- Every byte before the final `00` has its flag set (41_decoder.md R99). -/
theorem contFlag_of_mem_paddedRun {v : Word} {p : Nat} {b : Byte} (hb : b ∈ paddedRun v p) : contFlag b = true := by
  rcases List.mem_append.1 hb with hb | hb
  · obtain ⟨c, -, rfl⟩ := List.mem_map.1 hb
    exact contFlag_or_flag c
  · rw [List.eq_of_mem_replicate hb]
    rfl

/-- Zero groups add nothing to the sum (41_decoder.md R99). -/
theorem groupSum_padded (v : Word) (p : Nat) : groupSum (padded v p) = v.toNat := by
  rw [padded, groupSum_append, groupSum_append, groupSum_map_or_flag, groupSum_enc, groupSum_replicate_zero]
  rfl

end Codec

/-- Settles O44: a padded encoding is a run and a terminating byte, and its groups sum to the value. -/
theorem paddedEncodingsAreAccepted : Obligations.PaddedEncodingsAreAccepted := by
  intro v p hlen
  have hsum := Codec.groupSum_padded v p
  rw [Codec.padded_eq_paddedRun_append] at hsum hlen ⊢
  rw [List.length_append, List.length_singleton] at hlen ⊢
  have hp : Codec.Continues (Codec.paddedRun v p) :=
    ⟨Nat.le_of_succ_le_succ hlen, fun _ => Codec.contFlag_of_mem_paddedRun⟩
  rw [Codec.dec_of_last hp rfl, hsum, BitVec.ofNat_toNat, BitVec.setWidth_eq]

end Sys2Proof.Machine
end

section
/-! PROOFS. The DEC unit (O23, O26 to O30, O33): its turns and byte steps, the unit after each byte, and the operation
against the turns. -/

namespace Sys2Proof.Machine

/-! ### A byte step (41_decoder.md R94 to R97) -/

/-- The step of a terminating byte within the ranges of the registers (41_decoder.md R95). -/
theorem groupLastStep_of_le {u : DecUnit} (d : Group) (hs : u.sh.toNat ≤ 63) (hi : u.i.toNat ≤ 9) :
    groupLastStep d u =
      .ok (decRespondOk { u with acc := u.acc ||| (d.setWidth 64 <<< u.sh.toNat), i := u.i + 1#4 }) :=
  groupLastStep_eq_ok.2 ⟨_, accumulate_of_le d hs hi, rfl⟩

/-- The step of a continuation byte while the next group starts inside the register: the unit goes on (41_decoder.md
R97). -/
theorem groupContStep_of_le {u : DecUnit} (d : Group) (hs : u.sh.toNat + 7 ≤ 64) (hi : u.i.toNat ≤ 9) :
    groupContStep d u =
      .ok { u with acc := u.acc ||| (d.setWidth 64 <<< u.sh.toNat), i := u.i + 1#4, sh := u.sh + 7#7 } :=
  groupContStep_eq_ok.2 ⟨_, accumulate_of_le d (by omega) hi, by rw [advanceShift_of_le]; exact hs⟩

/-- The step of a continuation byte after which no group fits: Overlong (41_decoder.md R97). -/
theorem groupContStep_of_gt {u : DecUnit} (d : Group) (h : 64 < u.sh.toNat + 7) (hs : u.sh.toNat ≤ 63)
    (hi : u.i.toNat ≤ 9) :
    groupContStep d u =
      .ok (decRaise .overlong
        { u with acc := u.acc ||| (d.setWidth 64 <<< u.sh.toNat), i := u.i + 1#4, sh := u.sh + 7#7 }) :=
  groupContStep_eq_ok.2 ⟨_, accumulate_of_le d hs hi, by rw [advanceShift_of_gt]; exacts [h, hs]⟩

/-- GROUP_LAST, where it is enabled, is the unit's step (41_decoder.md R95). -/
theorem exec_groupLast_of_enabled {s : State} (h : byteStepEnabled s.dec = true) (d : Group) :
    exec (.groupLast d) s = liftDec s (groupLastStep d s.dec) :=
  if_pos h

/-- GROUP_CONT, where it is enabled, is the unit's step (41_decoder.md R97). -/
theorem exec_groupCont_of_enabled {s : State} (h : byteStepEnabled s.dec = true) (d : Group) :
    exec (.groupCont d) s = liftDec s (groupContStep d s.dec) :=
  if_pos h

/-- Settles O28: the accumulate step, and the OK response with the registers that it leaves. -/
theorem groupLastAccumulatesAndResponds : Obligations.GroupLastAccumulatesAndResponds := by
  intro d s hp hn hi hs
  rw [exec_groupLast_of_enabled (byteStepEnabled_iff.2 ⟨hp, hn⟩), groupLastStep_of_le d hs hi, liftDec_ok, decRespondOk,
    count_toNat hi]
  rfl

/-- Settles O29: the accumulate step, and then the shift with its guard's two outcomes. -/
theorem groupContContinuesOrRaisesOverlong : Obligations.GroupContContinuesOrRaisesOverlong := by
  intro d s hp hn hi
  have hexec := exec_groupCont_of_enabled (byteStepEnabled_iff.2 ⟨hp, hn⟩) d
  constructor
  · intro hin
    rw [hexec, groupContStep_of_le d hin hi]
    rfl
  · intro hpast hs
    rw [hexec, groupContStep_of_gt d hpast hs hi]
    rfl

/-- Settles O30: a unit in IDLE or with no byte left does not have the byte step enabled. -/
theorem byteStepRefusedWhenNotEnabled : Obligations.ByteStepRefusedWhenNotEnabled := by
  intro d s h
  have hoff : ¬ byteStepEnabled s.dec = true := by
    rw [byteStepEnabled_iff]
    rintro ⟨hp, hn⟩
    rcases h with hidle | hend
    · rw [hp] at hidle; cases hidle
    · omega
  exact ⟨if_neg hoff, if_neg hoff⟩

/-! ### A turn of the unit (41_decoder.md R92, R93) -/

/-- At the end of the input the step is to raise Truncated (41_decoder.md R93). -/
theorem decStep_of_end {u : DecUnit} (h : u.n ≤ u.i.toNat) : decStep u = .ok (decEndOfInput u) :=
  if_pos h

/-- A turn that a unit in RUN answers, as a step of the machine. -/
theorem step_turn_dec_run_of_ok {s : State} {ms : List Move} {d : DecUnit} (h : s.moves = .turn .dec :: ms)
    (hp : s.dec.ph = .run) (hd : decStep s.dec = .ok d) : step s = .next ((s.setMoves ms).setDec d) := by
  rw [step_turn_dec_run h hp, hd, liftDec_ok]

/-- A turn of an IDLE unit accepts the request presented (41_decoder.md R92). -/
theorem step_turn_dec_of_request {s : State} {ms : List Move} {r : DecRequest} (h : s.moves = .turn .dec :: ms)
    (hp : s.dec.ph = .idle) (hr : s.dec.req = some r) : step s = .next ((s.setMoves ms).setDec (decStart r)) := by
  rw [step_turn_dec_idle h hp, hr]

/-- Settles O26: the turn of an IDLE unit accepts the request. -/
theorem decoderStartLoadsRequest : Obligations.DecoderStartLoadsRequest := by
  intro s ms ibuf hmoves hp hr
  exact ⟨_, step_turn_dec_of_request hmoves hp hr, rfl, rfl, rfl, rfl, rfl, rfl, rfl, rfl, rfl⟩

/-- Settles O27: the turn of a unit in RUN at the end of its input raises Truncated. -/
theorem endOfInputRaisesTruncated : Obligations.EndOfInputRaisesTruncated := by
  intro s ms hmoves hp hn
  exact step_turn_dec_run_of_ok hmoves hp (decStep_of_end hn)

/-! ### The unit after each byte (41_decoder.md R98) -/

/-- The unit in RUN that has read the run `p` of its input, `rest` being still to read. -/
def decAfter (p rest : List Byte) : DecUnit :=
  { acc := BitVec.ofNat 64 (Codec.groupSum p), sh := BitVec.ofNat 7 (7 * p.length), i := BitVec.ofNat 4 p.length
    ph := .run, ibuf := p ++ rest, n := (p ++ rest).length, req := none, resp := none }

/-- The start has read nothing (41_decoder.md R92). -/
theorem decStart_eq_decAfter (ibuf : List Byte) : decStart ⟨ibuf, ibuf.length⟩ = decAfter [] ibuf := rfl

section Registers

variable {p : List Byte} (hp : Codec.Continues p) (b : Byte) (rest : List Byte)

include hp

/-- `D.I` counts the bytes read (10_state.md R16). -/
theorem decAfter_i_toNat : (decAfter p rest).i.toNat = p.length := by
  have hl := hp.length_le
  exact Nat.mod_eq_of_lt (by omega)

/-- `D.SH` is 7 for each byte read (10_state.md R15). -/
theorem decAfter_sh_toNat : (decAfter p rest).sh.toNat = 7 * p.length := by
  have hl := hp.length_le
  exact Nat.mod_eq_of_lt (by omega)

/-- With a byte left the unit runs the step of its class (41_decoder.md R94). -/
theorem decStep_decAfter_cons :
    decStep (decAfter p (b :: rest)) =
      if contFlag b then groupContStep (groupOf b) (decAfter p (b :: rest))
      else groupLastStep (groupOf b) (decAfter p (b :: rest)) := by
  have hi := decAfter_i_toNat hp (b :: rest)
  have hlt : (decAfter p (b :: rest)).i.toNat < (decAfter p (b :: rest)).n := by
    rw [hi]
    simp [decAfter]
  have hbyte : (decAfter p (b :: rest)).ibuf[(decAfter p (b :: rest)).i.toNat]? = some b := by
    rw [hi]
    simp [decAfter]
  simp only [decStep, if_neg (Nat.not_le.2 hlt), memRead_eq_some.2 ⟨hlt, hbyte⟩]

/-- Reading a byte counts it and adds its group; the shift goes up later (41_decoder.md R94). -/
theorem accumulate_decAfter :
    accumulate (groupOf b) (decAfter p (b :: rest)) =
      .ok { decAfter (p ++ [b]) rest with sh := BitVec.ofNat 7 (7 * p.length) } := by
  have hl := hp.length_le
  have hi := decAfter_i_toNat hp (b :: rest)
  have hs := decAfter_sh_toNat hp (b :: rest)
  rw [accumulate_of_le _ (by omega) (by omega), hs]
  simp only [decAfter, Codec.or_group_eq_ofNat_groupSum hl, List.length_append, List.length_cons, List.length_nil,
    BitVec.ofNat_add, List.append_assoc, List.singleton_append, Nat.zero_add]

end Registers

/-- After a continuation byte that the run goes on with, the unit has read it (41_decoder.md R97). -/
theorem decStep_decAfter_of_continues {p : List Byte} {b : Byte} (h : Codec.Continues (p ++ [b])) (rest : List Byte) :
    decStep (decAfter p (b :: rest)) = .ok (decAfter (p ++ [b]) rest) := by
  obtain ⟨hp, hl, hb⟩ := Codec.continues_concat.1 h
  have hs : (BitVec.ofNat 7 (7 * p.length)).toNat = 7 * p.length := decAfter_sh_toNat hp rest
  rw [decStep_decAfter_cons hp, if_pos hb]
  refine groupContStep_eq_ok.2 ⟨_, accumulate_decAfter hp b rest, ?_⟩
  rw [advanceShift_of_le (by simp only [hs]; omega)]
  simp only [decAfter, List.length_append, List.length_singleton, Nat.mul_add, BitVec.ofNat_add, Nat.mul_one]

/-- Where the run ends, the next step responds as the algorithm does (41_decoder.md R90 to R97). -/
theorem decStep_decAfter_of_ends {p rest : List Byte} (hp : Codec.Continues p) (hend : Codec.Ends p rest) :
    ∃ d, decStep (decAfter p rest) = .ok (decRespond (Codec.dec (p ++ rest)) d) ∧ d.req = none := by
  cases hend with
  | truncated =>
    have hn : (decAfter p []).n ≤ (decAfter p []).i.toNat := by
      rw [decAfter_i_toNat hp]
      simp [decAfter]
    rw [decStep_of_end hn, List.append_nil, Codec.dec_of_truncated hp]
    exact ⟨_, rfl, rfl⟩
  | @last b rest hb =>
    have hl := hp.length_le
    have hcount : (BitVec.ofNat 4 (p.length + 1)).toNat = (p ++ [b]).length := by
      rw [List.length_append, List.length_singleton]
      exact Nat.mod_eq_of_lt (by omega)
    have hresidual : (p ++ [b] ++ rest).drop (BitVec.ofNat 4 (p.length + 1)).toNat = rest := List.drop_left' hcount.symm
    rw [decStep_decAfter_cons hp, if_neg (by simp [hb]), Codec.dec_of_last hp hb]
    refine ⟨{ decAfter (p ++ [b]) rest with sh := BitVec.ofNat 7 (7 * p.length) },
      groupLastStep_eq_ok.2 ⟨_, accumulate_decAfter hp b rest, ?_⟩, rfl⟩
    simp only [decRespondOk, decAfter, List.length_append, List.length_singleton, hresidual]
  | @overlong b rest hb h9 =>
    have hs : (BitVec.ofNat 7 (7 * p.length)).toNat = 63 := by rw [h9]; rfl
    rw [decStep_decAfter_cons hp, if_pos hb, Codec.dec_of_overlong hp h9 hb]
    exact ⟨_, groupContStep_eq_ok.2 ⟨_, accumulate_decAfter hp b rest,
      (advanceShift_of_gt (by simp only [hs]; decide) hs.le).symm⟩, rfl⟩

/-! ### The whole operation (41_decoder.md R90) -/

/-- A unit in RUN takes its step and runs on. -/
theorem decRun_succ {d d' : DecUnit} (hp : d.ph = .run) (hd : decStep d = .ok d') (k : Nat) :
    decRun (k + 1) d = decRun k d' := by
  simp [decRun, hp, hd]

/-- An IDLE unit has nothing to run. -/
theorem decRun_of_idle {d : DecUnit} (hp : d.ph = .idle) (k : Nat) : decRun k d = .ok d := by
  cases k with
  | zero => rfl
  | succ k => simp [decRun, hp]

/-- The operation, the run `p` read. -/
theorem decOperation_eq_decRun {p : List Byte} (hp : Codec.Continues p) (rest : List Byte) :
    decOperation ⟨p ++ rest, (p ++ rest).length⟩ = decRun ((10 - p.length) + 1) (decAfter p rest) := by
  induction p using List.reverseRecOn generalizing rest with
  | nil => rfl
  | append_singleton p b ih =>
    obtain ⟨hq, hl, -⟩ := Codec.continues_concat.1 hp
    have hleft : 10 - p.length = (10 - (p ++ [b]).length) + 1 := by
      rw [List.length_append, List.length_singleton]; omega
    rw [List.append_assoc, List.singleton_append, ih hq, decRun_succ rfl (decStep_decAfter_of_continues hp rest), hleft]

/-- DECODE on an IDLE unit leaves the unit that the step at the end of the run leaves (41_decoder.md R90). -/
theorem exec_decode_of_idle {p rest : List Byte} {d : DecUnit} (hp : Codec.Continues p)
    (hd : decStep (decAfter p rest) = .ok d) (hidle : d.ph = .idle) {s : State} (hs : s.dec.ph = .idle) :
    exec (.decode (p ++ rest) (p ++ rest).length) s = .next (s.setDec d) := by
  have hop : decOperation ⟨p ++ rest, (p ++ rest).length⟩ = .ok d := by
    rw [decOperation_eq_decRun hp, decRun_succ rfl hd, decRun_of_idle hidle]
  rw [exec, execDecode, if_pos rfl, hs]
  exact congrArg (liftDec s) hop

/-- Settles O23: the operation ends in the step at the end of the run, which responds as the algorithm does. -/
theorem decodeRespondsWithAlgorithmsResult : Obligations.DecodeRespondsWithAlgorithmsResult := by
  intro ibuf s hs
  obtain ⟨p, rest, rfl, hp, hend⟩ := Codec.exists_continues_ends ibuf
  obtain ⟨d, hd, hreq⟩ := decStep_decAfter_of_ends hp hend
  exact ⟨_, exec_decode_of_idle hp hd rfl hs, rfl, rfl, rfl, rfl, hreq, rfl, rfl⟩

/-! ### One byte a turn (41_decoder.md R102) -/

/-- After the start and a turn for each byte of the run, the unit has read the run. -/
theorem stepN_turns_eq_decAfter {p rest : List Byte} (hp : Codec.Continues p) {s : State} (hs : s.dec.ph = .idle)
    (hr : s.dec.req = some ⟨p ++ rest, (p ++ rest).length⟩) {ms : List Move}
    (hmoves : s.moves = List.replicate (p.length + 1) (.turn .dec) ++ ms) :
    stepN (p.length + 1) s = .next ((s.setMoves ms).setDec (decAfter p rest)) := by
  induction p using List.reverseRecOn generalizing rest ms with
  | nil => exact stepN_succ 0 (step_turn_dec_of_request hmoves hs hr)
  | append_singleton p b ih =>
    obtain ⟨hq, -, -⟩ := Codec.continues_concat.1 hp
    rw [List.append_assoc, List.singleton_append] at hr
    rw [List.length_append, List.length_singleton] at hmoves ⊢
    have hsplit : s.moves = List.replicate (p.length + 1) (.turn .dec) ++ .turn .dec :: ms := by
      rw [hmoves, List.replicate_succ', List.append_assoc, List.singleton_append]
    exact stepN_succ_of_eq_next (ih hq hr hsplit)
      (step_turn_dec_run_of_ok rfl rfl (decStep_decAfter_of_continues hp rest))

/-- The turns that R180 counts: the start, one for each byte of the run, and the step at its end. -/
theorem decSteps_of_ends {p rest : List Byte} (hp : Codec.Continues p) (hend : Codec.Ends p rest) :
    Codec.decSteps (p ++ rest) = p.length + 1 + 1 := by
  have hl := hp.length_le
  cases hend with
  | truncated =>
    rw [List.append_nil, Codec.decSteps, Codec.dec_of_truncated hp]
    exact congrArg (· + 1) (Nat.add_comm 1 p.length)
  | last hb =>
    have hcount : (BitVec.ofNat 4 (p.length + 1)).toNat = p.length + 1 := Nat.mod_eq_of_lt (by omega)
    rw [Codec.decSteps, Codec.dec_of_last hp hb]
    simp only [hcount]
    omega
  | overlong hb h9 => rw [Codec.decSteps, Codec.dec_of_overlong hp h9 hb, h9]

/-- Settles O33: the turn at the end of the run responds, and until then the unit is in RUN. -/
theorem decoderTurnsAgreeWithAtomicOperation : Obligations.DecoderTurnsAgreeWithAtomicOperation := by
  intro s ibuf hs hr hmoves
  obtain ⟨p, rest, rfl, hp, hend⟩ := Codec.exists_continues_ends ibuf
  obtain ⟨d, hd, -⟩ := decStep_decAfter_of_ends hp hend
  rw [decSteps_of_ends hp hend] at hmoves ⊢
  have hrun := stepN_turns_eq_decAfter hp hs hr (hmoves.trans List.replicate_succ')
  have hdone := stepN_succ_of_eq_next hrun (step_turn_dec_run_of_ok rfl rfl hd)
  exact ⟨_, _, _, hdone, exec_decode_of_idle hp hd rfl hs, rfl, rfl, rfl, hrun, rfl⟩

end Sys2Proof.Machine
end

section
/-! PROOFS. The laws of the codec (O34 to O42): every encoding is a terminated varint, and what the decoder answers on a
terminated varint, a run of continuation bytes and an overlong input decides each law. -/

namespace Sys2Proof.Machine

namespace Codec

/-! ### Terminated varints (30_encoding.md R51) -/

/-- A varint within the decoder's bound: a run of at most nine continuation bytes and a terminating byte. -/
def Terminated (a : List Byte) : Prop := ∃ p b, Continues p ∧ contFlag b = false ∧ a = p ++ [b]

/-- A varint has at most `MAXLEN` bytes (00_scope.md R6). -/
theorem Terminated.length_le {a : List Byte} (ha : Terminated a) : a.length ≤ 10 := by
  obtain ⟨p, b, hp, -, rfl⟩ := ha
  rw [List.length_append, List.length_singleton]
  exact Nat.succ_le_succ hp.length_le

/-- `CONSUMED` has room for the length of a varint (10_state.md R16). -/
theorem Terminated.ofNat_length_toNat {a : List Byte} (ha : Terminated a) :
    (BitVec.ofNat 4 a.length).toNat = a.length :=
  Nat.mod_eq_of_lt (ha.length_le.trans_lt (by decide))

/-- A varint decodes to the sum of its groups, whatever follows it (41_decoder.md R91). -/
theorem Terminated.dec_append {a : List Byte} (ha : Terminated a) (rest : List Byte) :
    dec (a ++ rest) = .ok (BitVec.ofNat 64 (groupSum a)) (BitVec.ofNat 4 a.length) rest := by
  obtain ⟨p, b, hp, hb, rfl⟩ := ha
  rw [List.append_assoc, List.singleton_append, dec_of_last hp hb, List.length_append, List.length_singleton]

/-- A beginning of a run is a run. -/
theorem Continues.take {p : List Byte} (hp : Continues p) (k : Nat) : Continues (p.take k) :=
  ⟨(List.length_take_le' k p).trans hp.length_le, fun b hb => hp.flags b (List.mem_of_mem_take hb)⟩

/-- A proper beginning of a varint is a run of continuation bytes. -/
theorem Terminated.continues_take {a : List Byte} (ha : Terminated a) {k : Nat} (hk : k < a.length) :
    Continues (a.take k) := by
  obtain ⟨p, b, hp, -, rfl⟩ := ha
  rw [List.length_append, List.length_singleton] at hk
  rw [List.take_append_of_le_length (Nat.le_of_lt_succ hk)]
  exact hp.take k

/-- The flags of a varint are told by its length (30_encoding.md R51). -/
theorem Terminated.map_contFlag {a : List Byte} (ha : Terminated a) :
    a.map contFlag = List.replicate (a.length - 1) true ++ [false] := by
  obtain ⟨p, b, hp, hb, rfl⟩ := ha
  have hrun : p.map contFlag = List.replicate p.length true := List.map_eq_replicate_iff.2 hp.flags
  rw [List.map_append, hrun, List.map_singleton, hb, List.length_append, List.length_singleton, Nat.add_sub_cancel]

/-! ### Bytes told by flags and groups (30_encoding.md R50) -/

/-- A byte is its flag and its group. -/
theorem eq_of_contFlag_eq_of_groupOf_eq {x y : Byte} (hflag : contFlag x = contFlag y)
    (hgroup : groupOf x = groupOf y) : x = y := by
  cases hx : contFlag x with
  | false => rw [← lastByteOf_groupOf hx, hgroup, lastByteOf_groupOf (hflag ▸ hx)]
  | true => rw [← contByteOf_groupOf hx, hgroup, contByteOf_groupOf (hflag ▸ hx)]

/-- Bytes with the same flags and the same sum of groups are the same: the groups are digits to base 128. -/
theorem eq_of_groupSum_eq {a a' : List Byte} (hflags : a.map contFlag = a'.map contFlag)
    (hsum : groupSum a = groupSum a') : a = a' := by
  induction a generalizing a' with
  | nil => exact (List.map_eq_nil_iff.1 hflags.symm).symm
  | cons x a ih =>
    cases a' with
    | nil => cases hflags
    | cons y a' =>
      obtain ⟨hflag, hflags⟩ := List.cons.inj hflags
      have hx := (groupOf x).isLt
      have hy := (groupOf y).isLt
      simp only [groupSum] at hsum
      have hgroup : groupOf x = groupOf y := BitVec.eq_of_toNat_eq (by omega)
      rw [eq_of_contFlag_eq_of_groupOf_eq hflag hgroup, ih hflags (by omega)]

/-- Varints of one length and one sum of groups are the same. -/
theorem Terminated.eq_of_groupSum_eq {a a' : List Byte} (ha : Terminated a) (ha' : Terminated a')
    (hlen : a.length = a'.length) (hsum : groupSum a = groupSum a') : a = a' :=
  Codec.eq_of_groupSum_eq (by rw [ha.map_contFlag, ha'.map_contFlag, hlen]) hsum

/-! ### Encodings are terminated varints -/

/-- The first bytes of an encoding, up to the last offset, are a run (40_encoder.md R73, R75). -/
theorem continues_contBytes (v : Word) : Continues (contBytes v (lastOffset v)) where
  length_le := (length_contBytes v _).trans_le (lastOffset_le v)
  flags b hb := by
    obtain ⟨k, -, rfl⟩ := List.mem_map.1 hb
    rw [contByte_eq, contFlag_contByteOf]

/-- An encoding is a varint (40_encoder.md R71). -/
theorem terminated_enc (v : Word) : Terminated (enc v) :=
  ⟨_, _, continues_contBytes v, by rw [lastByte_eq, contFlag_lastByteOf], enc_eq_contBytes_append v⟩

/-- No varint of a value is shorter than its encoding (30_encoding.md R57). -/
theorem Terminated.length_enc_le {a : List Byte} (ha : Terminated a) :
    (enc (BitVec.ofNat 64 (groupSum a))).length ≤ a.length := by
  obtain ⟨p, b, -, -, rfl⟩ := ha
  have hsum : (BitVec.ofNat 64 (groupSum (p ++ [b]))).toNat < 128 ^ (p ++ [b]).length := by
    have hlt := groupSum_lt (p ++ [b])
    rw [Nat.pow_mul] at hlt
    exact (Nat.mod_le _ _).trans_lt hlt
  rw [length_enc]
  exact Nat.log_lt_of_lt_pow' (by simp) hsum

/-- A varint of at most nine bytes keeps every group: its value is their sum (30_encoding.md R52). -/
theorem ofNat_groupSum_toNat {a : List Byte} (hl : a.length ≤ 9) :
    (BitVec.ofNat 64 (groupSum a)).toNat = groupSum a :=
  Nat.mod_eq_of_lt ((groupSum_lt a).trans_le (Nat.pow_le_pow_right (by decide) (by omega)))

/-- A varint of at most nine bytes is the encoding of its value exactly when it has that length. -/
theorem Terminated.length_enc_eq_iff {a : List Byte} (ha : Terminated a) (hl : a.length ≤ 9) :
    (enc (BitVec.ofNat 64 (groupSum a))).length = a.length ↔ a = enc (BitVec.ofNat 64 (groupSum a)) := by
  constructor
  · intro hlen
    refine ha.eq_of_groupSum_eq (terminated_enc _) hlen.symm ?_
    rw [groupSum_enc, ofNat_groupSum_toNat hl]
  · intro heq
    exact congrArg List.length heq.symm

/-! ### What a verdict tells of the input (41_decoder.md R91) -/

/-- The inputs on which the decoder gives a response. -/
inductive Verdict : List Byte → DecResponse → Prop where
  /-- A run of continuation bytes and nothing more (R93). -/
  | truncated {p : List Byte} (hp : Continues p) : Verdict p (.failed .truncated)
  /-- A varint and a residual (R95). -/
  | ok {a : List Byte} (ha : Terminated a) (rest : List Byte) :
      Verdict (a ++ rest) (.ok (BitVec.ofNat 64 (groupSum a)) (BitVec.ofNat 4 a.length) rest)
  /-- Ten continuation bytes (R97). -/
  | overlong {p : List Byte} {b : Byte} (hp : Continues p) (hl : p.length = 9) (hb : contFlag b = true)
      (rest : List Byte) : Verdict (p ++ b :: rest) (.failed .overlong)

/-- The decoder's response is its verdict on the input. -/
theorem verdict_dec (ibuf : List Byte) : Verdict ibuf (dec ibuf) := by
  obtain ⟨p, rest, rfl, hp, hend⟩ := exists_continues_ends ibuf
  cases hend with
  | truncated =>
    rw [List.append_nil, dec_of_truncated hp]
    exact .truncated hp
  | @last b rest hb =>
    have ha : Terminated (p ++ [b]) := ⟨p, b, hp, hb, rfl⟩
    rw [List.append_cons, ha.dec_append]
    exact .ok ha rest
  | overlong hb hl =>
    rw [dec_of_overlong hp hl hb]
    exact .overlong hp hl hb _

/-- A response tells the verdict. -/
theorem verdict_of_dec_eq {ibuf : List Byte} {w : DecResponse} (h : dec ibuf = w) : Verdict ibuf w :=
  h ▸ verdict_dec ibuf

/-- A run and ten continuation bytes more begins with ten continuation bytes (42_codec_laws.md R129). -/
theorem Continues.flags_take_append {p : List Byte} (hp : Continues p) :
    ∀ b ∈ (p ++ List.replicate 10 0x80#8).take 10, contFlag b = true := by
  intro b hb
  rcases List.mem_append.1 (List.mem_of_mem_take hb) with hb | hb
  · exact hp.flags b hb
  · rw [List.eq_of_mem_replicate hb]
    rfl

end Codec

/-! ### The round trip (42_codec_laws.md R120, R122) -/

/-- Settles O34: an encoding is a terminated varint, and its groups sum to the value. -/
theorem encodingsDecodeWithAnySuffix : Obligations.EncodingsDecodeWithAnySuffix := by
  intro v suffix
  rw [(Codec.terminated_enc v).dec_append, Codec.groupSum_enc, BitVec.ofNat_toNat, BitVec.setWidth_eq]

/-- An encoding alone decodes to its value with nothing left (42_codec_laws.md R120). -/
theorem Codec.dec_enc (v : Word) : Codec.dec (Codec.enc v) = .ok v (BitVec.ofNat 4 (Codec.enc v).length) [] := by
  have h := encodingsDecodeWithAnySuffix v []
  rwa [List.append_nil] at h

/-- Settles O35: each unit responds as its algorithm does (O17, O23), and the algorithms give the value back (O34). -/
theorem roundTripThroughBothUnits : Obligations.RoundTripThroughBothUnits := by
  intro v suffix s henc hdec
  obtain ⟨t, ht, hbytes, -, -, -, -, -, htdec, -⟩ := encodeRespondsWithAlgorithmsBytes v s henc
  have hidle : t.dec.ph = .idle := htdec ▸ hdec
  obtain ⟨u, hu, hvalue, -, -, -, -, huenc, -⟩ :=
    decodeRespondsWithAlgorithmsResult (Codec.enc v ++ suffix) t hidle
  rw [encodingsDecodeWithAnySuffix] at hvalue
  exact ⟨t, u, _, ht, hbytes, hu, hvalue, huenc ▸ hbytes⟩

/-! ### Failures (42_codec_laws.md R123, R124) -/

/-- Settles O36: a proper beginning of an encoding is a run of continuation bytes and nothing more. -/
theorem properBeginningsAreTruncated : Obligations.ProperBeginningsAreTruncated := by
  intro v p hp
  exact Codec.dec_of_truncated ((Codec.terminated_enc v).continues_take hp)

/-- Settles O37, by the closed form (O24): among ten continuation bytes there is no terminator. -/
theorem tenContinuationBytesAreOverlong : Obligations.TenContinuationBytesAreOverlong := by
  intro s hlen hflags
  rw [decoderHasClosedForm, Codec.decClosed, Codec.terminator_eq_none hflags]
  exact if_neg (Nat.not_le.2 hlen)

/-! ### Canonical encodings (42_codec_laws.md R125, R126, R130) -/

/-- Settles O38: the consumed bytes are a varint of the value, and up to nine of them keep every group. -/
theorem reencodingIsNoLonger : Obligations.ReencodingIsNoLonger := by
  intro ibuf r v c h
  cases Codec.verdict_of_dec_eq h with
  | @ok a ha =>
    rw [ha.ofNat_length_toNat, List.take_left]
    exact ⟨ha.length_enc_le, Codec.dec_enc _, ha.length_enc_eq_iff⟩

/-- Refutes O39: `FF*9 7F` decodes to `2^64 - 1` with ten bytes consumed, the tenth group losing bits 1 to 6 (R96), and
the encoding of that value has ten bytes too but is `FF*9 01`. -/
theorem not_equalLengthMeansCanonical : ¬ Obligations.EqualLengthMeansCanonical := by
  intro h
  have hdec : Codec.dec (List.replicate 9 0xFF#8 ++ [0x7F#8]) = .ok 0xFFFFFFFFFFFFFFFF#64 10#4 [] := by decide
  have hlen : (Codec.enc 0xFFFFFFFFFFFFFFFF#64).length = (10#4).toNat := by decide
  have hcanonical := (h _ _ _ _ hdec).1 hlen
  exact absurd hcanonical (by decide)

/-- Settles O40: an encoding decodes to its value (R120), and `00` and `80 00` both decode to 0. -/
theorem encodingIsInjectiveDecodingIsNot : Obligations.EncodingIsInjectiveDecodingIsNot := by
  constructor
  · intro v w heq
    have hv := Codec.dec_enc v
    rw [heq, Codec.dec_enc w] at hv
    exact (DecResponse.ok.inj hv).1.symm
  · exact ⟨[0x00#8], [0x80#8, 0x00#8], 0#64, 1#4, 2#4, by decide, by decide, by decide⟩

/-- Settles O42: the length counts the digits to base 128. -/
theorem largerValuesHaveNoShorterEncodings : Obligations.LargerValuesHaveNoShorterEncodings := by
  intro v w hle
  rw [Codec.length_enc, Codec.length_enc]
  exact Nat.succ_le_succ (Nat.log_mono_right hle)

/-! ### More bytes (42_codec_laws.md R129) -/

/-- Settles O41, by the verdict: what follows a varint or ten continuation bytes is not read, and a run of continuation
bytes still lacks its end. -/
theorem suffixChangesOnlyTruncatedVerdicts : Obligations.SuffixChangesOnlyTruncatedVerdicts := by
  refine ⟨fun s t r v c h => ?_, fun s t h => ?_, fun s h => ?_⟩
  · cases Codec.verdict_of_dec_eq h with
    | ok ha => rw [List.append_assoc, ha.dec_append]
  · cases Codec.verdict_of_dec_eq h with
    | overlong hp hl hb => rw [List.append_assoc, List.cons_append, Codec.dec_of_overlong hp hl hb]
  · cases Codec.verdict_of_dec_eq h with
    | truncated hp =>
      exact ⟨⟨List.replicate 10 0x80#8, tenContinuationBytesAreOverlong _ (by simp) hp.flags_take_append⟩,
        [0x00#8], _, _, _, Codec.dec_of_last hp rfl []⟩

end Sys2Proof.Machine
end

section
/-! PROOFS. The codes of STATUS (O12, 60_exceptions.md R141). -/

namespace Sys2Proof.Machine

@[simp] theorem statusOfCode_statusCode (x : Status) : statusOfCode (statusCode x) = some x := by
  cases x with
  | ok => rfl
  | truncated => rfl
  | overlong => rfl

theorem statusOfCode_three : statusOfCode 3#2 = none := rfl

/-- The code of a status reads back, and code 3 does not. -/
theorem statusCode_ne_three (x : Status) : statusCode x ≠ 3#2 := by
  intro h
  have hread : statusOfCode 3#2 = some x := h ▸ statusOfCode_statusCode x
  rw [statusOfCode_three] at hread
  cases hread

/-- Settles O12: no status has code 3, so neither has the status of a response. -/
theorem statusCodesAreThree : Obligations.StatusCodesAreThree :=
  ⟨rfl, rfl, rfl, statusOfCode_three, statusOfCode_statusCode, fun r => statusCode_ne_three (responseStatus r)⟩

end Sys2Proof.Machine
end

section
/-! PROOFS. Reset, the IDLE block and the waiting request (O2, O3, O4, O46), the order of two units' turns (O52), and the
bound on the turns of a unit in RUN (O50). -/

namespace Sys2Proof.Machine

/-! ### Reset (70_reset_and_hazards.md R170, R172) -/

/-- Settles O2: the units after the reset move are those of reset, whatever they were, but for their request lines. -/
theorem resetDropsOperationsInProgress : Obligations.ResetDropsOperationsInProgress :=
  fun _ _ h => ⟨_, step_reset h, rfl, rfl, rfl, rfl, rfl, rfl, rfl, rfl, rfl, rfl, rfl, rfl, rfl⟩

/-- Settles O46: each unit meets the invariant after reset, and reset leaves no request on the DEC unit's line. -/
theorem resetMeetsInvariant : Obligations.ResetMeetsInvariant :=
  ⟨EncUnit.afterReset_inv none, DecUnit.afterReset_inv fun _ h => nomatch h⟩

/-! ### The IDLE block (70_reset_and_hazards.md R171) -/

/-- An IDLE ENC unit with no request has no enabled step. -/
theorem encReady_eq_false {e : EncUnit} (hp : e.ph = .idle) (hr : e.req = none) : encReady e = false := by
  rw [encReady, hp, hr]
  rfl

/-- An IDLE DEC unit with no request has no enabled step. -/
theorem decReady_eq_false {d : DecUnit} (hp : d.ph = .idle) (hr : d.req = none) : decReady d = false := by
  rw [decReady, hp, hr]
  rfl

/-- With no move to come and no unit ready, a step changes nothing. -/
theorem step_of_not_ready {s : State} (h : s.moves = []) (he : encReady s.enc = false) (hd : decReady s.dec = false) :
    step s = .next s := by
  rw [step_free h, hd, he]
  rfl

/-- Settles O3: no unit is ready, and reset is one such state. -/
theorem idleBlockDoesNothingWithoutRequest : Obligations.IdleBlockDoesNothingWithoutRequest := by
  have hidle (s : State) (hmoves : s.moves = []) (hpe : s.enc.ph = .idle) (hpd : s.dec.ph = .idle)
      (hre : s.enc.req = none) (hrd : s.dec.req = none) : step s = .next s :=
    step_of_not_ready hmoves (encReady_eq_false hpe hre) (decReady_eq_false hpd hrd)
  exact ⟨hidle State.reset rfl rfl rfl rfl rfl, hidle⟩

/-! ### The waiting request (70_reset_and_hazards.md R175) -/

/-- Settles O4: a unit in RUN holds a called request on its line, where a presented one stands in every phase. -/
theorem requestToRunningUnitIsOnlyHeld : Obligations.RequestToRunningUnitIsOnlyHeld :=
  ⟨fun v _ hp => exec_encode_of_run v hp, fun ibuf _ hp => exec_decode_of_run ibuf hp,
    fun _ _ _ h _ => step_present_encode h, fun _ _ _ h _ => step_present_decode h⟩

/-! ### A turn of the DEC unit, as a function of the unit -/

/-- What a turn makes of the DEC unit (41_decoder.md R92 to R98), as `encTurn` says it of the ENC unit. -/
def decTurn (d : DecUnit) : Except Fault DecUnit :=
  match d.ph with
  | .run => decStep d
  | .idle =>
    match d.req with
    | some r => .ok (decStart r)
    | none => .ok d

/-- A DEC unit in RUN takes its enabled step (41_decoder.md R93, R94). -/
theorem decTurn_of_run {d : DecUnit} (hp : d.ph = .run) : decTurn d = decStep d := by
  simp [decTurn, hp]

/-- An IDLE DEC unit accepts the request presented (41_decoder.md R92). -/
theorem decTurn_of_request {d : DecUnit} {r : DecRequest} (hp : d.ph = .idle) (hr : d.req = some r) :
    decTurn d = .ok (decStart r) := by
  simp [decTurn, hp, hr]

/-- An IDLE DEC unit with no request has nothing to do in its turn. -/
theorem decTurn_of_no_request {d : DecUnit} (hp : d.ph = .idle) (hr : d.req = none) : decTurn d = .ok d := by
  simp [decTurn, hp, hr]

/-- An IDLE ENC unit with no request has nothing to do in its turn. -/
theorem encTurn_of_no_request {e : EncUnit} (hp : e.ph = .idle) (hr : e.req = none) : encTurn e = .ok e := by
  simp [encTurn, hp, hr]

/-- A turn of the DEC unit is a step of that unit alone (10_state.md R10, 41_decoder.md R103). -/
theorem step_turn_dec {s : State} {ms : List Move} (h : s.moves = .turn .dec :: ms) :
    step s = liftDec (s.setMoves ms) (decTurn s.dec) := by
  cases hp : s.dec.ph with
  | run => rw [step_turn_dec_run h hp, decTurn_of_run hp]
  | idle =>
    cases hr : s.dec.req with
    | some r => rw [step_turn_dec_of_request h hp hr, decTurn_of_request hp hr, liftDec_ok]
    | none =>
      rw [step_turn_dec_idle h hp, hr, decTurn_of_no_request hp hr]
      rfl

/-- A turn that the DEC unit answers, as a step of the machine. -/
theorem step_turn_dec_of_ok {s : State} {ms : List Move} {d : DecUnit} (h : s.moves = .turn .dec :: ms)
    (hd : decTurn s.dec = .ok d) : step s = .next ((s.setMoves ms).setDec d) := by
  rw [step_turn_dec h, hd, liftDec_ok]

/-- A turn of the unit answers, and keeps the invariant (41_decoder.md R92 to R98). -/
theorem DecUnit.Inv.decTurn_answers {d : DecUnit} (h : d.Inv) : ∃ d', decTurn d = .ok d' ∧ d'.Inv := by
  cases hp : d.ph with
  | run => exact decTurn_of_run hp ▸ h.decStep_answers hp
  | idle =>
    cases hr : d.req with
    | some r => exact ⟨_, decTurn_of_request hp hr, decStart_inv (h.req r hr)⟩
    | none => exact ⟨d, decTurn_of_no_request hp hr, h⟩

/-! ### The order of two turns (70_reset_and_hazards.md R177) -/

/-- A run of two steps. -/
theorem stepN_two {s t u : State} (ht : step s = .next t) (hu : step t = .next u) : stepN 2 s = .next u :=
  (stepN_succ 1 ht).trans (stepN_succ 0 hu)

/-- Settles O52: each turn reads and writes its own unit alone, so either order leaves the two units after their turns. -/
theorem turnsOfTheTwoUnitsCommute : Obligations.TurnsOfTheTwoUnitsCommute := by
  intro s ms hs
  obtain ⟨e, he, -⟩ := hs.enc.encTurn_answers
  obtain ⟨d, hd, -⟩ := hs.dec.decTurn_answers
  exact ⟨{ enc := e, dec := d, moves := ms },
    stepN_two (step_turn_enc_of_ok rfl he) (step_turn_dec_of_ok rfl hd),
    stepN_two (step_turn_dec_of_ok rfl hd) (step_turn_enc_of_ok rfl he), rfl⟩

/-! ### The turns to the response (70_reset_and_hazards.md R179) -/

/-- What every step passes on to the count below holds at 0 after that many steps. -/
theorem stepN_countdown {P : Nat → State → Prop} (hstep : ∀ {k s}, P (k + 1) s → ∃ t, step s = .next t ∧ P k t)
    {k : Nat} {s : State} (h : P k s) : ∃ t, stepN k s = .next t ∧ P 0 t := by
  induction k generalizing s with
  | zero => exact ⟨s, rfl, h⟩
  | succ k ih =>
    obtain ⟨w, hw, hP⟩ := hstep h
    rw [stepN_succ k hw]
    exact ih hP

/-- The ENC unit has responded, or will in the `k` turns to come: in RUN each of them adds a byte, and the tenth byte is
the last (40_encoder.md R75). -/
structure EncDue (k : Nat) (s : State) : Prop where
  moves : s.moves = List.replicate k (.turn .enc)
  inv : s.enc.Inv
  req : s.enc.req = none
  idle : s.enc.ph = .idle → s.enc.resp.isSome = true
  run : s.enc.ph = .run → 10 ≤ s.enc.n.toNat + k

/-- A turn brings the ENC unit's response one turn nearer. -/
theorem EncDue.step_answers {k : Nat} {s : State} (h : EncDue (k + 1) s) : ∃ t, step s = .next t ∧ EncDue k t := by
  obtain ⟨e, he, hinv⟩ := h.inv.encTurn_answers
  refine ⟨_, step_turn_enc_of_ok h.moves he, ?_⟩
  cases hp : s.enc.ph with
  | idle =>
    obtain rfl := Except.ok.inj ((encTurn_of_no_request hp h.req).symm.trans he)
    exact ⟨rfl, hinv, h.req, h.idle, fun hrun => nomatch hp.symm.trans hrun⟩
  | run =>
    obtain ⟨hl, hn⟩ := h.inv.runCount hp
    rw [encTurn_of_run hp] at he
    by_cases hv : 0x80 ≤ s.enc.v.toNat
    · obtain rfl := Except.ok.inj ((encStep_of_ge hv hl hn).symm.trans he)
      refine ⟨rfl, hinv, h.req, fun hidle => (nomatch hp.symm.trans hidle), fun _ => ?_⟩
      have hcount := count_toNat hn
      have hdue := h.run hp
      simp only [State.setEnc_enc, hcount]
      omega
    · obtain rfl := Except.ok.inj ((encStep_of_lt (Nat.lt_of_not_le hv) hl hn).symm.trans he)
      exact ⟨rfl, hinv, h.req, fun _ => rfl, fun hrun => nomatch hrun⟩

/-- With no turn left the ENC unit has responded: in RUN at most 9 bytes are out. -/
theorem EncDue.responded {s : State} (h : EncDue 0 s) : s.enc.ph = .idle ∧ s.enc.resp.isSome = true := by
  cases hp : s.enc.ph with
  | idle => exact ⟨rfl, h.idle hp⟩
  | run =>
    obtain ⟨-, hn⟩ := h.inv.runCount hp
    exact absurd (h.run hp) (by omega)

/-- The step after which a unit in RUN is IDLE raised Overlong (41_decoder.md R97). -/
theorem advanceShift_of_idle {u : DecUnit} (hp' : (advanceShift u).ph = .idle) (hp : u.ph = .run)
    (hs : u.sh.toNat ≤ 63) : advanceShift u = decRaise .overlong { u with sh := u.sh + 7#7 } := by
  by_cases h : u.sh.toNat + 7 ≤ 64
  · rw [advanceShift_of_le h] at hp'
    cases hp.symm.trans hp'
  · exact advanceShift_of_gt (Nat.lt_of_not_le h) hs

/-- A step that ends the operation keeps the request line and leaves a response (41_decoder.md R93 to R97). -/
theorem decStep_eq_ok_of_idle {u u' : DecUnit} (hp : u.ph = .run) (h : decStep u = .ok u') (hp' : u'.ph = .idle) :
    u'.req = u.req ∧ u'.resp.isSome = true := by
  rcases decStep_cases u with ⟨-, hd⟩ | ⟨-, -, hd⟩ | ⟨b, -, -, hd⟩ <;> rw [hd] at h
  · cases h
    exact ⟨rfl, rfl⟩
  · cases h
  · cases hflag : contFlag b with
    | true =>
      rw [hflag, if_pos rfl] at h
      obtain ⟨w, hw, rfl⟩ := groupContStep_eq_ok.1 h
      obtain ⟨hs, -, rfl⟩ := accumulate_eq_ok.1 hw
      rw [advanceShift_of_idle hp' hp hs]
      exact ⟨rfl, rfl⟩
    | false =>
      rw [hflag, if_neg Bool.false_ne_true] at h
      obtain ⟨w, hw, rfl⟩ := groupLastStep_eq_ok.1 h
      obtain ⟨-, -, rfl⟩ := accumulate_eq_ok.1 hw
      exact ⟨rfl, rfl⟩

/-- The DEC unit has responded, or will in the `k` turns to come: in RUN each of them reads a byte, and the tenth byte ends
the operation (41_decoder.md R98). -/
structure DecDue (k : Nat) (s : State) : Prop where
  moves : s.moves = List.replicate k (.turn .dec)
  inv : s.dec.Inv
  req : s.dec.req = none
  idle : s.dec.ph = .idle → s.dec.resp.isSome = true
  run : s.dec.ph = .run → 10 ≤ s.dec.i.toNat + k

/-- A turn brings the DEC unit's response one turn nearer. -/
theorem DecDue.step_answers {k : Nat} {s : State} (h : DecDue (k + 1) s) : ∃ t, step s = .next t ∧ DecDue k t := by
  obtain ⟨d, hd, hinv⟩ := h.inv.decTurn_answers
  refine ⟨_, step_turn_dec_of_ok h.moves hd, ?_⟩
  cases hp : s.dec.ph with
  | idle =>
    obtain rfl := Except.ok.inj ((decTurn_of_no_request hp h.req).symm.trans hd)
    exact ⟨rfl, hinv, h.req, h.idle, fun hrun => nomatch hp.symm.trans hrun⟩
  | run =>
    rw [decTurn_of_run hp] at hd
    cases hp' : d.ph with
    | run =>
      obtain ⟨g, hi, rfl⟩ := decStep_eq_ok_of_run hd hp'
      refine ⟨rfl, hinv, h.req, fun hidle => (nomatch hp'.symm.trans hidle), fun _ => ?_⟩
      have hcount := count_toNat hi
      have hdue := h.run hp
      simp only [State.setDec_dec, hcount]
      omega
    | idle =>
      obtain ⟨hreq, hresp⟩ := decStep_eq_ok_of_idle hp hd hp'
      exact ⟨rfl, hinv, hreq.trans h.req, fun _ => hresp, fun hrun => nomatch hp'.symm.trans hrun⟩

/-- With no turn left the DEC unit has responded: in RUN the shift `7 * D.I` is at most 63, so `D.I` is at most 9. -/
theorem DecDue.responded {s : State} (h : DecDue 0 s) : s.dec.ph = .idle ∧ s.dec.resp.isSome = true := by
  cases hp : s.dec.ph with
  | idle => exact ⟨rfl, h.idle hp⟩
  | run =>
    obtain ⟨hsh, h63, -⟩ := h.inv.runShift hp
    exact absurd (h.run hp) (by omega)

/-- Settles O50: a unit in RUN is due within its bound, each turn brings the response one turn nearer, and with no turn
left it stands. -/
theorem runningUnitRespondsWithinBound : Obligations.RunningUnitRespondsWithinBound := by
  constructor
  · intro s hs hp hr hmoves
    have hdue : EncDue 10 s := ⟨hmoves, hs.enc, hr, fun hidle => (nomatch hp.symm.trans hidle), fun _ => by omega⟩
    obtain ⟨t, ht, hlast⟩ := stepN_countdown EncDue.step_answers hdue
    exact ⟨t, ht, hlast.responded⟩
  · intro s hs hp hr hmoves
    have hdue : DecDue 11 s := ⟨hmoves, hs.dec, hr, fun hidle => (nomatch hp.symm.trans hidle), fun _ => by omega⟩
    obtain ⟨t, ht, hlast⟩ := stepN_countdown DecDue.step_answers hdue
    exact ⟨t, ht, hlast.responded⟩

end Sys2Proof.Machine
end

section
/-! PROOFS. The source's table of values and bytes (O45, 95_test_vectors.md section 1.1). -/

namespace Sys2Proof.Machine

/-- Settles O45: each row is a closed instance of the loop of 40_encoder.md R70, and evaluates to the table's bytes. -/
theorem sourceExamplesEncode : Obligations.SourceExamplesEncode :=
  ⟨rfl, rfl, rfl, rfl, rfl, rfl, rfl⟩

end Sys2Proof.Machine
end
